-- ==== Sys2Proof/Word.lean ====
section
/-! DEFINITION. The words of the machine (00_scope.md R5, R7): bytes of registers and memory, 16-bit words of PC, I,
stack entries and instructions, 12-bit address immediates. All quantities are unsigned (R7). -/

namespace Sys2Proof

/-- An 8-bit value: a general register, a timer, a byte of memory (R5, `REG_W`). -/
abbrev Byte := BitVec 8

/-- A 16-bit value: PC, I, a stack entry, an instruction word (R5, `PC_W`, `I_W`). -/
abbrev Word := BitVec 16

/-- A 12-bit address immediate `nnn` (30_encoding.md R72). -/
abbrev Addr12 := BitVec 12

end Sys2Proof
end

