-- ==== Sys2Proof/Syntax.lean ====
section
/-! DEFINITION. The abstract syntax: the 27 instructions of 30_encoding.md R76, one constructor per row of
spec/opcode_table.json, in the table's order. -/

namespace Sys2Proof

/-- A register number, the nibble `x` or `y` (30_encoding.md R72); register 15 is VF (10_state.md R20). -/
abbrev Reg := Fin 16

/-- The flag register VF (10_state.md R22). -/
abbrev VF : Reg := 15

/-- One instruction with its operands (30_encoding.md R73, R76). The operand types carry the ranges the fields admit
(R74), so every term is an instruction of the machine. -/
inductive Instr where
  /-- `00E0` clear the display (R130). -/
  | cls
  /-- `00EE` return from subroutine (R100). -/
  | ret
  /-- `1nnn` jump (R101). -/
  | jp (nnn : Addr12)
  /-- `2nnn` call subroutine (R102). -/
  | call (nnn : Addr12)
  /-- `3xnn` skip if equal (R103). -/
  | seVxNn (x : Reg) (nn : Byte)
  /-- `4xnn` skip if not equal (R104). -/
  | sneVxNn (x : Reg) (nn : Byte)
  /-- `6xnn` load immediate (R110). -/
  | ldVxNn (x : Reg) (nn : Byte)
  /-- `7xnn` add immediate, no flag (R111). -/
  | addVxNn (x : Reg) (nn : Byte)
  /-- `8xy0` assign (R112). -/
  | ldVxVy (x y : Reg)
  /-- `8xy1` bitwise OR (R113). -/
  | orVxVy (x y : Reg)
  /-- `8xy2` bitwise AND (R114). -/
  | andVxVy (x y : Reg)
  /-- `8xy3` bitwise exclusive OR (R115). -/
  | xorVxVy (x y : Reg)
  /-- `8xy4` add, carry to VF (R116). -/
  | addVxVy (x y : Reg)
  /-- `8xy5` subtract, no-borrow to VF (R117). -/
  | subVxVy (x y : Reg)
  /-- `8xy6` shift right by one, bit 0 to VF (R118). -/
  | shrVxVy (x y : Reg)
  /-- `8xyE` shift left by one, bit 7 to VF (R119). -/
  | shlVxVy (x y : Reg)
  /-- `Annn` load the index register (R120). -/
  | ldINnn (nnn : Addr12)
  /-- `Cxnn` masked random byte (R121). -/
  | rndVxNn (x : Reg) (nn : Byte)
  /-- `Dxyn` draw an n-row sprite, collision to VF (R131). -/
  | drwVxVyN (x y : Reg) (n : Fin 16)
  /-- `Ex9E` skip if key pressed (R105). -/
  | skpVx (x : Reg)
  /-- `ExA1` skip if key not pressed (R106). -/
  | sknpVx (x : Reg)
  /-- `Fx07` read the delay timer (R140). -/
  | ldVxDt (x : Reg)
  /-- `Fx15` set the delay timer (R141). -/
  | ldDtVx (x : Reg)
  /-- `Fx18` set the sound timer (R142). -/
  | ldStVx (x : Reg)
  /-- `Fx33` store the decimal digits of Vx (R143). -/
  | bcdVx (x : Reg)
  /-- `Fx55` store V0..Vx at I (R144). -/
  | stV0Vx (x : Reg)
  /-- `Fx65` load V0..Vx from I (R145). -/
  | ldV0Vx (x : Reg)
  deriving DecidableEq, Repr

end Sys2Proof
end

