-- ==== Sys2Proof/WellFormed.lean ====
section
/-! DEFINITION. Well-formedness of what comes from outside: an instruction word (30_encoding.md R77) and a ROM
(70_reset_and_hazards.md R181, R182). A term of `Instr` needs no check: its operand types carry every range R74 gives
(a register 0..15, `nn` 8 bits, `nnn` 12 bits, a row count 0..15), and an ill-formed instruction can only be met as a
word, which `supported` refuses. The list of R77 is written out here in plain arithmetic, apart from the decoder. -/

namespace Sys2Proof

/-- A word of one of the 27 instructions: false for exactly the words of the list (a) to (g) of 30_encoding.md R77. -/
def supported (w : Word) : Bool :=
  let low := w.toNat % 256
  let sel := w.toNat % 16
  match w.toNat / 4096 with
  | 0x0 => w == 0x00E0#16 || w == 0x00EE#16
  | 0x5 => false
  | 0x8 => !(sel == 0x7 || (0x8 ≤ sel && sel ≤ 0xD) || sel == 0xF)
  | 0x9 => false
  | 0xB => false
  | 0xE => low == 0x9E || low == 0xA1
  | 0xF => low == 0x07 || low == 0x15 || low == 0x18 || low == 0x33 || low == 0x55 || low == 0x65
  | _ => true

/-- The largest ROM accepted, `0x1000 - 0x200` bytes (00_scope.md R5, `ROM_MAX`). -/
abbrev romMax : Nat := 0x1000 - 0x200

/-- A ROM that reset accepts (70_reset_and_hazards.md R181): at most 3584 bytes; an empty one is accepted. -/
def romFits (rom : List Byte) : Bool := decide (rom.length ≤ romMax)

end Sys2Proof
end

