-- ==== Sys2Proof/Decode.lean ====
section
/-! DEFINITION. The decoder (30_encoding.md R70 to R79, R83) from bytes to an instruction, total and rejecting by name;
the opcode map of R76 as data; and the encoder, written from the same formats (R73). -/

namespace Sys2Proof

/-- Why bytes are no instruction. -/
inductive DecodeError where
  /-- The word matches no row of the opcode map (30_encoding.md R77). -/
  | unsupported (op : Word)
  /-- Fewer than two bytes are given: an instruction is exactly 2 bytes (R71). -/
  | tooShort
  deriving DecidableEq, Repr

/-! ### The fields of an instruction word (R72) -/

/-- `fam = op[15:12]`. -/
def fieldFam (op : Word) : BitVec 4 := op.extractLsb' 12 4

/-- `x = op[11:8]`. -/
def fieldX (op : Word) : Reg := (op.extractLsb' 8 4).toFin

/-- `y = op[7:4]`. -/
def fieldY (op : Word) : Reg := (op.extractLsb' 4 4).toFin

/-- `n = op[3:0]`. -/
def fieldN (op : Word) : Fin 16 := (op.extractLsb' 0 4).toFin

/-- `nn = op[7:0]`. -/
def fieldNN (op : Word) : Byte := op.extractLsb' 0 8

/-- `nnn = op[11:0]`. -/
def fieldNNN (op : Word) : Addr12 := op.extractLsb' 0 12

/-- `op = b0 ++ b1`: the byte at PC is the high byte (20_memory.md R53). -/
def wordOfBytes (b0 b1 : Byte) : Word := b0 ++ b1

/-- The byte at PC, `op[15:8]`. -/
def highByte (op : Word) : Byte := op.extractLsb' 8 8

/-- The byte at PC + 1, `op[7:0]`. -/
def lowByte (op : Word) : Byte := op.extractLsb' 0 8

/-! ### Decoding -/

/-- Family 0 multiplexes on the whole word (R79). -/
def decodeFam0 (op : Word) : Except DecodeError Instr :=
  if op = 0x00E0#16 then .ok .cls
  else if op = 0x00EE#16 then .ok .ret
  else .error (.unsupported op)

/-- Family 8 multiplexes on the low nibble; the selector values are R83's (the spec's own decision D2, log 8). -/
def decodeFam8 (op : Word) : Except DecodeError Instr :=
  let x := fieldX op
  let y := fieldY op
  match (fieldN op).val with
  | 0x0 => .ok (.ldVxVy x y)
  | 0x1 => .ok (.orVxVy x y)
  | 0x2 => .ok (.andVxVy x y)
  | 0x3 => .ok (.xorVxVy x y)
  | 0x4 => .ok (.addVxVy x y)
  | 0x5 => .ok (.subVxVy x y)
  | 0x6 => .ok (.shrVxVy x y)
  | 0xE => .ok (.shlVxVy x y)
  | _ => .error (.unsupported op)

/-- Family E multiplexes on the low byte (R79). -/
def decodeFamE (op : Word) : Except DecodeError Instr :=
  match (fieldNN op).toNat with
  | 0x9E => .ok (.skpVx (fieldX op))
  | 0xA1 => .ok (.sknpVx (fieldX op))
  | _ => .error (.unsupported op)

/-- Family F multiplexes on the low byte (R79); which timer pattern does what is R147's (decision D7, log 8). -/
def decodeFamF (op : Word) : Except DecodeError Instr :=
  let x := fieldX op
  match (fieldNN op).toNat with
  | 0x07 => .ok (.ldVxDt x)
  | 0x15 => .ok (.ldDtVx x)
  | 0x18 => .ok (.ldStVx x)
  | 0x33 => .ok (.bcdVx x)
  | 0x55 => .ok (.stV0Vx x)
  | 0x65 => .ok (.ldV0Vx x)
  | _ => .error (.unsupported op)

/-- `Decode(op)` of R75: a pure, total function of the 16 bits, by family (R76). -/
def decodeWord (op : Word) : Except DecodeError Instr :=
  match (fieldFam op).toNat with
  | 0x0 => decodeFam0 op
  | 0x1 => .ok (.jp (fieldNNN op))
  | 0x2 => .ok (.call (fieldNNN op))
  | 0x3 => .ok (.seVxNn (fieldX op) (fieldNN op))
  | 0x4 => .ok (.sneVxNn (fieldX op) (fieldNN op))
  | 0x6 => .ok (.ldVxNn (fieldX op) (fieldNN op))
  | 0x7 => .ok (.addVxNn (fieldX op) (fieldNN op))
  | 0x8 => decodeFam8 op
  | 0xA => .ok (.ldINnn (fieldNNN op))
  | 0xC => .ok (.rndVxNn (fieldX op) (fieldNN op))
  | 0xD => .ok (.drwVxVyN (fieldX op) (fieldY op) (fieldN op))
  | 0xE => decodeFamE op
  | 0xF => decodeFamF op
  | _ => .error (.unsupported op)

/-- Decode the first instruction of a list of bytes and give the bytes after it: every instruction is exactly 2 bytes,
high byte first (R71, 20_memory.md R53). -/
def decode : List Byte → Except DecodeError (Instr × List Byte)
  | b0 :: b1 :: rest =>
    match decodeWord (wordOfBytes b0 b1) with
    | .ok i => .ok (i, rest)
    | .error e => .error e
  | _ => .error .tooShort

/-! ### The opcode map as data -/

/-- One row of the opcode map of R76: an instruction word is this row's exactly when `op and mask = pattern`; `build`
reads the operands by the row's format (R73). -/
structure OpcodeRow where
  mnemonic : String
  mask : Word
  pattern : Word
  build : Word → Instr

/-- The row's selection test (R75). -/
def OpcodeRow.selects (r : OpcodeRow) (op : Word) : Bool := op &&& r.mask == r.pattern

/-- The opcode map of R76, in its order. -/
def opcodeMap : List OpcodeRow :=
  [ ⟨"CLS", 0xFFFF, 0x00E0, fun _ => .cls⟩,
    ⟨"RET", 0xFFFF, 0x00EE, fun _ => .ret⟩,
    ⟨"JP", 0xF000, 0x1000, fun op => .jp (fieldNNN op)⟩,
    ⟨"CALL", 0xF000, 0x2000, fun op => .call (fieldNNN op)⟩,
    ⟨"SE_VX_NN", 0xF000, 0x3000, fun op => .seVxNn (fieldX op) (fieldNN op)⟩,
    ⟨"SNE_VX_NN", 0xF000, 0x4000, fun op => .sneVxNn (fieldX op) (fieldNN op)⟩,
    ⟨"LD_VX_NN", 0xF000, 0x6000, fun op => .ldVxNn (fieldX op) (fieldNN op)⟩,
    ⟨"ADD_VX_NN", 0xF000, 0x7000, fun op => .addVxNn (fieldX op) (fieldNN op)⟩ ] ++
  [ ⟨"LD_VX_VY", 0xF00F, 0x8000, fun op => .ldVxVy (fieldX op) (fieldY op)⟩,
    ⟨"OR_VX_VY", 0xF00F, 0x8001, fun op => .orVxVy (fieldX op) (fieldY op)⟩,
    ⟨"AND_VX_VY", 0xF00F, 0x8002, fun op => .andVxVy (fieldX op) (fieldY op)⟩,
    ⟨"XOR_VX_VY", 0xF00F, 0x8003, fun op => .xorVxVy (fieldX op) (fieldY op)⟩,
    ⟨"ADD_VX_VY", 0xF00F, 0x8004, fun op => .addVxVy (fieldX op) (fieldY op)⟩,
    ⟨"SUB_VX_VY", 0xF00F, 0x8005, fun op => .subVxVy (fieldX op) (fieldY op)⟩,
    ⟨"SHR_VX_VY", 0xF00F, 0x8006, fun op => .shrVxVy (fieldX op) (fieldY op)⟩,
    ⟨"SHL_VX_VY", 0xF00F, 0x800E, fun op => .shlVxVy (fieldX op) (fieldY op)⟩ ] ++
  [ ⟨"LD_I_NNN", 0xF000, 0xA000, fun op => .ldINnn (fieldNNN op)⟩,
    ⟨"RND_VX_NN", 0xF000, 0xC000, fun op => .rndVxNn (fieldX op) (fieldNN op)⟩,
    ⟨"DRW_VX_VY_N", 0xF000, 0xD000, fun op => .drwVxVyN (fieldX op) (fieldY op) (fieldN op)⟩,
    ⟨"SKP_VX", 0xF0FF, 0xE09E, fun op => .skpVx (fieldX op)⟩,
    ⟨"SKNP_VX", 0xF0FF, 0xE0A1, fun op => .sknpVx (fieldX op)⟩,
    ⟨"LD_VX_DT", 0xF0FF, 0xF007, fun op => .ldVxDt (fieldX op)⟩,
    ⟨"LD_DT_VX", 0xF0FF, 0xF015, fun op => .ldDtVx (fieldX op)⟩,
    ⟨"LD_ST_VX", 0xF0FF, 0xF018, fun op => .ldStVx (fieldX op)⟩,
    ⟨"BCD_VX", 0xF0FF, 0xF033, fun op => .bcdVx (fieldX op)⟩,
    ⟨"ST_V0_VX", 0xF0FF, 0xF055, fun op => .stV0Vx (fieldX op)⟩,
    ⟨"LD_V0_VX", 0xF0FF, 0xF065, fun op => .ldV0Vx (fieldX op)⟩ ]

/-! ### Encoding -/

/-- A register number or row count as its nibble. -/
def nibble (k : Fin 16) : BitVec 4 := BitVec.ofFin k

/-- Format NNN: `fam ++ nnn`. -/
def formatNNN (fam : BitVec 4) (nnn : Addr12) : Word := fam ++ nnn

/-- Format XNN, and XS with the selector for `nn`: `fam ++ x ++ nn`. -/
def formatXNN (fam : BitVec 4) (x : Reg) (nn : Byte) : Word := fam ++ nibble x ++ nn

/-- Format XYN, and XYS with the selector for `n`: `fam ++ x ++ y ++ n`. -/
def formatXYN (fam : BitVec 4) (x y : Reg) (n : Fin 16) : Word := fam ++ nibble x ++ nibble y ++ nibble n

/-- The word of an instruction (R73, R76, R83). -/
def encodeWord : Instr → Word
  | .cls => 0x00E0
  | .ret => 0x00EE
  | .jp nnn => formatNNN 0x1 nnn
  | .call nnn => formatNNN 0x2 nnn
  | .seVxNn x nn => formatXNN 0x3 x nn
  | .sneVxNn x nn => formatXNN 0x4 x nn
  | .ldVxNn x nn => formatXNN 0x6 x nn
  | .addVxNn x nn => formatXNN 0x7 x nn
  | .ldVxVy x y => formatXYN 0x8 x y 0x0
  | .orVxVy x y => formatXYN 0x8 x y 0x1
  | .andVxVy x y => formatXYN 0x8 x y 0x2
  | .xorVxVy x y => formatXYN 0x8 x y 0x3
  | .addVxVy x y => formatXYN 0x8 x y 0x4
  | .subVxVy x y => formatXYN 0x8 x y 0x5
  | .shrVxVy x y => formatXYN 0x8 x y 0x6
  | .shlVxVy x y => formatXYN 0x8 x y 0xE
  | .ldINnn nnn => formatNNN 0xA nnn
  | .rndVxNn x nn => formatXNN 0xC x nn
  | .drwVxVyN x y n => formatXYN 0xD x y n
  | .skpVx x => formatXNN 0xE x 0x9E
  | .sknpVx x => formatXNN 0xE x 0xA1
  | .ldVxDt x => formatXNN 0xF x 0x07
  | .ldDtVx x => formatXNN 0xF x 0x15
  | .ldStVx x => formatXNN 0xF x 0x18
  | .bcdVx x => formatXNN 0xF x 0x33
  | .stV0Vx x => formatXNN 0xF x 0x55
  | .ldV0Vx x => formatXNN 0xF x 0x65

/-- The two bytes of an instruction as they lie in memory (R71, 20_memory.md R53). -/
def encode (i : Instr) : List Byte := [highByte (encodeWord i), lowByte (encodeWord i)]

/-- The instruction the decoder reads from the bytes of a table word: `w` numbered with bit 0 least significant, its
high byte first in memory (20_memory.md R53). `nbits` is 16 for every row; bits above it are 0. -/
def decodeTableWord (nbits w : Nat) : Option Instr :=
  let op := BitVec.ofNat 16 (w % 2 ^ nbits)
  match decode [highByte op, lowByte op] with
  | .ok (i, _) => some i
  | .error _ => none

end Sys2Proof
end

