-- ==== Sys2Proof/Config.lean ====
section
/-! DEFINITION. What an instance of the machine fixes (00_scope.md R6(a)) and the free values (R6(c)). -/

namespace Sys2Proof

/-- Which register the two shifts read (00_scope.md R6(a), 41_load_alu.md R118, R119). -/
inductive ShiftSource where
  | vx
  | vy
  deriving DecidableEq, Repr

/-- The open parameters an instance fixes. The machine state carries one value of this type and no step changes it, so a
statement about every state holds for every instance (log 4). -/
structure Config where
  shiftSource : ShiftSource
  deriving DecidableEq, Repr

/-- The default of 00_scope.md R6(a): `SHIFT_SOURCE = VX`. -/
def Config.default : Config := { shiftSource := .vx }

/-- FREE VALUE (log 2): the key snapshot of the `k`-th instruction step whose inputs the schedule does not list
(10_state.md R38: a free 16-bit input, under no law). It has no body, so nothing can rest on it. -/
opaque Config.freeKeys : Nat → BitVec 16

/-- FREE VALUE (log 2): the random byte of the `k`-th instruction step whose inputs the schedule does not list
(10_state.md R39: a free 8-bit input, under no law). -/
opaque Config.freeRnd : Nat → Byte

end Sys2Proof
end

