-- ==== Sys2Proof/Machine/State.lean ====
section
/-! DEFINITION. The state of the machine (10_state.md), its faults and refusals, and the state after reset (R45).
Plain data: every field can be written out and compared. -/

namespace Sys2Proof.Machine

/-! ### The parts of the state -/

/-- The kinds of error the core raises (60_exceptions.md R150); the name is the code. -/
inductive ErrKind where
  /-- The fetched word matches no row of the opcode map (R151). -/
  | unsupportedOpcode
  /-- `2nnn` with 16 addresses on the stack (R152). -/
  | stackOverflow
  /-- `00EE` with an empty stack (R153). -/
  | stackUnderflow
  /-- A computed memory address of 4096 or more (R154). -/
  | addressOutOfRange
  /-- A reset with a ROM of more than 3584 bytes (R155, R182). -/
  | romTooLarge
  deriving DecidableEq, Repr

/-- The error record (10_state.md R33): the kind, the instruction word (`none` where no word was fetched) and the PC at
the start of the faulting step. -/
structure ErrRecord where
  kind : ErrKind
  opcode : Option Word
  pc : Word
  deriving DecidableEq, Repr

/-- The memory `MEM` (10_state.md R34): the bytes that differ from what an unlisted address reads as, by rising
address. `Memory.wf` is the canonical form. -/
abbrev Memory := List Host.Cell

/-- What an address the memory does not list reads as: 0x00, the reset contents (10_state.md R45, 20_memory.md R52;
log 7). -/
abbrev Memory.unlisted : Byte := 0#8

/-- The canonical form of a memory: addresses of the address space `0x000..0xFFF` (20_memory.md R50), strictly rising,
and no byte equal to what an unlisted address reads as. -/
def Memory.wf (m : Memory) : Bool :=
  decide (m.Pairwise (fun c d => c.1 < d.1)) && m.all (fun c => decide (c.1 ≤ 0xFFF) && c.2 != Memory.unlisted)

/-- The framebuffer `FB` (10_state.md R35): 32 rows of 64 one-bit pixels; bit `x` of row `y` is `FB[y][x]`. -/
abbrev Framebuffer := Vector (BitVec 64) 32

/-- One move of the machine's surroundings and agents (60_exceptions.md R166): which of them acts, and what it draws. -/
inductive Move where
  /-- An instruction step, with the KEYS and RND values drawn for it (30_encoding.md R70). -/
  | instr (keys : BitVec 16) (rnd : Byte)
  /-- A timer tick (60_exceptions.md R165). -/
  | tick
  /-- The host's quit request (60_exceptions.md R162). -/
  | quit
  /-- The host's reset with a ROM (70_reset_and_hazards.md R180). -/
  | reset (rom : List Byte)
  deriving DecidableEq, Repr

/-! ### The state -/

/-- The state of the machine. -/
structure State where
  /-- `V[0]`..`V[15]` (10_state.md R20). -/
  v : Vector Byte 16
  /-- `I` (R26). -/
  i : Word
  /-- `PC` (R23). -/
  pc : Word
  /-- `SP`, the number of addresses on the stack, 0..16 (R28). -/
  sp : Fin 17
  /-- `STACK[0]`..`STACK[15]` (R27). -/
  stack : Vector Word 16
  /-- `DT` (R30). -/
  dt : Byte
  /-- `ST` (R31). -/
  st : Byte
  /-- `RUN` (R32). -/
  run : Bool
  /-- `ERR` (R33). -/
  err : Option ErrRecord
  /-- `MEM` (R34). -/
  mem : Memory
  /-- `FB` (R35). -/
  fb : Framebuffer
  /-- Input port `KEYS`: the value drawn for the instruction step in progress (R38, log 2). -/
  keys : BitVec 16
  /-- Input port `RND`: the value drawn for the instruction step in progress (R39, log 2). -/
  rnd : Byte
  /-- The instance's open parameters (00_scope.md R6(a), log 4). -/
  cfg : Config
  /-- The moves to come (60_exceptions.md R166, log 1). -/
  schedule : List Move
  /-- How many instruction steps have drawn free input values (log 2). -/
  draws : Nat
  deriving DecidableEq, Repr

/-- Why a step has no next state. -/
inductive Fault where
  /-- The move that comes next is an instruction step or a timer tick, and `RUN = 0`: in the halted state no agent
  steps (60_exceptions.md R170). Raised by `act` alone, never by an instruction. Safe: the machine stops where the
  hardware has no step (log 5). -/
  | halted
  deriving DecidableEq, Repr

/-- Why an instruction is given no meaning. No instruction of this machine is refused. -/
inductive Refusal where
  /-- Raised by `exec`'s arm of an instruction that has no meaning yet; no arm does. Safe. -/
  | notModelled (mnemonic : String)
  deriving DecidableEq, Repr

/-- The state right after a reset with an empty ROM: the table of 10_state.md R45. The fields after `fb` are no state of
the machine: the ports as they stand before the first draw, the default parameter, no move listed, no free draw made
(log 3, 4). -/
def State.reset : State where
  v := Vector.replicate 16 0x00#8
  i := 0x0000#16
  pc := 0x0200#16
  sp := 0
  stack := Vector.replicate 16 0x0000#16
  dt := 0x00#8
  st := 0x00#8
  run := true
  err := none
  mem := []
  fb := Vector.replicate 32 0#64
  keys := 0#16
  rnd := 0#8
  cfg := Config.default
  schedule := []
  draws := 0

end Sys2Proof.Machine
end

