-- ==== Sys2Proof/Machine/Ops.lean ====
section
/-! DEFINITION. The operations the instructions share: the loop of the pseudocode, memory, registers, stack, PC,
framebuffer, and raising a fault. -/

namespace Sys2Proof.Machine

/-- The pseudocode's `for k in 0..n-1`: `f 0` first, `f (n-1)` last. -/
def loop {α : Type} (f : Nat → α → α) : Nat → α → α
  | 0, a => a
  | k + 1, a => f k (loop f k a)

/-! ### Memory (00_scope.md R9, 20_memory.md) -/

/-- An address of the address space, `0x000..0xFFF` (20_memory.md R50, R56). -/
def addrOk (a : Nat) : Bool := decide (a ≤ 0xFFF)

/-- The byte at an address: what the list holds there, or what an unlisted address reads as. -/
def Memory.read : Memory → Nat → Byte
  | [], _ => Memory.unlisted
  | (b, x) :: m, a => if a = b then x else Memory.read m a

/-- A cell put before the first cell of a higher address. -/
def Memory.insert (a : Nat) (x : Byte) : Memory → Memory
  | [] => [(a, x)]
  | c :: m => if a < c.1 then (a, x) :: c :: m else c :: Memory.insert a x m

/-- The memory without the cells of an address. -/
def Memory.erase (a : Nat) (m : Memory) : Memory := m.filter (fun c => c.1 != a)

/-- One byte written (00_scope.md R9, `MemWrite`); a byte equal to what an unlisted address reads as is not listed. -/
def Memory.write (m : Memory) (a : Nat) (x : Byte) : Memory :=
  if x = Memory.unlisted then Memory.erase a m else Memory.insert a x (Memory.erase a m)

/-- `n` bytes written, `f k` at `a + k`, by ascending address (20_memory.md R54). -/
def Memory.writeMany (m : Memory) (a : Nat) (f : Nat → Byte) (n : Nat) : Memory :=
  loop (fun k m => Memory.write m (a + k) (f k)) n m

/-- The instruction word at an address (00_scope.md R9, `MemRead(addr, 2)`; big-endian, 20_memory.md R53). -/
def Memory.readWord (m : Memory) (a : Nat) : Word := wordOfBytes (Memory.read m a) (Memory.read m (a + 1))

/-- A new memory. -/
def State.setMem (s : State) (m : Memory) : State := { s with mem := m }

/-! ### Registers -/

/-- `V[x]`. -/
abbrev State.getV (s : State) (x : Reg) : Byte := s.v[x]

/-- `V[x] <- b`. -/
def State.setV (s : State) (x : Reg) (b : Byte) : State := { s with v := s.v.set x b }

/-- All sixteen general registers. -/
def State.setRegs (s : State) (v : Vector Byte 16) : State := { s with v := v }

/-- `I <- a`. -/
def State.setI (s : State) (a : Word) : State := { s with i := a }

/-- `DT <- b`. -/
def State.setDt (s : State) (b : Byte) : State := { s with dt := b }

/-- `ST <- b`. -/
def State.setSt (s : State) (b : Byte) : State := { s with st := b }

/-! ### Program counter (10_state.md R24) -/

/-- `PC <- target`. -/
def State.setPc (s : State) (target : Word) : State := { s with pc := target }

/-- `PC <- PC + 2`, in 16 bits (log 11). -/
def State.advance (s : State) : State := s.setPc (s.pc + 2#16)

/-- `PC <- PC + 4` when the condition holds, else `PC <- PC + 2`. -/
def State.skipIf (s : State) (c : Bool) : State := if c then s.setPc (s.pc + 4#16) else s.advance

/-! ### Call stack (10_state.md R29) -/

/-- `Push(a)`: none when 16 addresses are on the stack. -/
def State.push (s : State) (a : Word) : Option State :=
  if h : s.sp.val < 16 then
    some { s with stack := s.stack.set s.sp.val a, sp := ⟨s.sp.val + 1, by omega⟩ }
  else none

/-- `Pop()`: none when the stack is empty; else the popped address and the state with the decreased SP. -/
def State.pop (s : State) : Option (Word × State) :=
  if h : 0 < s.sp.val then
    some (s.stack[s.sp.val - 1], { s with sp := ⟨s.sp.val - 1, by omega⟩ })
  else none

/-! ### Framebuffer (10_state.md R35) -/

/-- `FB[y][x]`. -/
def Framebuffer.pixel (fb : Framebuffer) (x : Fin 64) (y : Fin 32) : Bool := fb[y].getLsb x

/-- `FB[y][x] <- FB[y][x] xor b`. -/
def Framebuffer.xorPixel (fb : Framebuffer) (x : Fin 64) (y : Fin 32) (b : Bool) : Framebuffer :=
  fb.set y (fb[y] ^^^ (if b then BitVec.twoPow 64 x.val else 0#64))

/-- Every pixel off. -/
def Framebuffer.blank : Framebuffer := Vector.replicate 32 0#64

/-- A new framebuffer. -/
def State.setFb (s : State) (fb : Framebuffer) : State := { s with fb := fb }

/-! ### Faults (00_scope.md R10, 60_exceptions.md R156) -/

/-- Fault entry: `RUN <- 0` and `ERR <- (K, op or none, PC)`, and nothing else. -/
def State.raise (s : State) (k : ErrKind) (op : Option Word) : State :=
  { s with run := false, err := some { kind := k, opcode := op, pc := s.pc } }

/-- `raise K` in the meaning of instruction `i`: the word recorded is the instruction's own (R151 to R154, log 10). -/
def State.raiseIn (s : State) (k : ErrKind) (i : Instr) : State := s.raise k (some (encodeWord i))

end Sys2Proof.Machine
end

