-- ==== Sys2Proof/Machine/Operands.lean ====
section
/-! DEFINITION. The operand forms: immediates, the effective address, the shift source, the key test, the register
block, the sprite rows and the decimal digits. -/

namespace Sys2Proof.Machine

/-- `zext_16(nnn)`, an absolute address (30_encoding.md R74). -/
def addrOf (nnn : Addr12) : Word := nnn.setWidth 16

/-- The effective address `I + k`, a natural number, never wrapped (43_timer_memory.md R146, 20_memory.md R56). -/
abbrev State.addr (s : State) (k : Nat) : Nat := s.i.toNat + k

/-- The register the shifts read: `V[x]` when `SHIFT_SOURCE = VX`, else `V[y]` (41_load_alu.md R118). -/
def State.shiftOperand (s : State) (x y : Reg) : Byte :=
  match s.cfg.shiftSource with
  | .vx => s.getV x
  | .vy => s.getV y

/-- `(k <= 15) and (KEYS[k] = 1)` for `k = V[x]`: a key number above 15 is never pressed (40_control_transfer.md R105;
the spec's own decision D9, log 8). -/
def State.keyPressed (s : State) (x : Reg) : Bool :=
  decide ((s.getV x).toNat ≤ 15) && s.keys.getLsbD (s.getV x).toNat

/-- `V[k]` for a loop counter `k`, which is below 16 where it is used (43_timer_memory.md R144). -/
def State.regAt (s : State) (k : Nat) : Byte := s.getV (Fin.ofNat 16 k)

/-- The registers with `V[0]`..`V[n-1]` loaded from `base` upward (43_timer_memory.md R145). -/
def State.loadedRegs (s : State) (base n : Nat) : Vector Byte 16 :=
  loop (fun k v => v.setIfInBounds k (s.mem.read (base + k))) n s.v

/-- The decimal digits of a byte: hundreds, tens, ones (43_timer_memory.md R143). -/
def bcdDigit (b : Byte) (k : Nat) : Byte :=
  match k with
  | 0 => BitVec.ofNat 8 (b.toNat / 100)
  | 1 => BitVec.ofNat 8 (b.toNat / 10 % 10)
  | _ => BitVec.ofNat 8 (b.toNat % 10)

/-- Sprite bit of column `col` in a row's byte, most significant bit first: `b[7 - col]` (42_display.md R131). -/
def spriteBit (b : Byte) (col : Nat) : Bool := b.getLsbD (7 - col)

end Sys2Proof.Machine
end

