-- ==== Sys2Proof/Machine/Flags.lean ====
section
/-! DEFINITION. The values written to VF (10_state.md R22) by the five flag-producing instructions, and the order of the
two writes (41_load_alu.md R123). -/

namespace Sys2Proof.Machine

/-- A flag as the byte 1 or 0. -/
def flagByte (c : Bool) : Byte := if c then 1#8 else 0#8

/-- Carry of `a + b`: the true sum exceeds 255 (41_load_alu.md R116, R122). -/
def carryOut (a b : Byte) : Bool := decide (a.toNat + b.toNat > 255)

/-- No borrow in `a - b`: `a >= b` (41_load_alu.md R117; polarity by the spec's own decision D3, log 8). -/
def noBorrow (a b : Byte) : Bool := decide (b.toNat ≤ a.toNat)

/-- The bit a right shift by one moves out, `a[0]` (41_load_alu.md R118; decision D4, log 8). -/
def shiftedOutRight (a : Byte) : Bool := a.getLsbD 0

/-- The bit a left shift by one moves out, `a[7]` (41_load_alu.md R119; decision D4, log 8). -/
def shiftedOutLeft (a : Byte) : Bool := a.getLsbD 7

/-- The result to `V[x]`, then the flag to VF, so that with `x = F` the flag remains (41_load_alu.md R123; decision D5,
log 8). -/
def State.setResultFlag (s : State) (x : Reg) (result : Byte) (flag : Bool) : State :=
  (s.setV x result).setV VF (flagByte flag)

end Sys2Proof.Machine
end

