-- ==== Sys2Proof/Machine/Control.lean ====
section
/-! DEFINITION. Control transfer (40_control_transfer.md): RET, JP, CALL and the four skips. -/

namespace Sys2Proof.Machine

/-- What every meaning answers. -/
abbrev Result := Host.Outcome State Fault Refusal

/-- `00EE` (R100). -/
def execRet (s : State) : Result :=
  match s.pop with
  | none => .next (s.raiseIn .stackUnderflow .ret)
  | some (a, s') => .next (s'.setPc a)

/-- `1nnn` (R101). -/
def execJp (nnn : Addr12) (s : State) : Result := .next (s.setPc (addrOf nnn))

/-- `2nnn` (R102). -/
def execCall (nnn : Addr12) (s : State) : Result :=
  match s.push (s.pc + 2#16) with
  | none => .next (s.raiseIn .stackOverflow (.call nnn))
  | some s' => .next (s'.setPc (addrOf nnn))

/-- `3xnn` (R103). -/
def execSeVxNn (x : Reg) (nn : Byte) (s : State) : Result := .next (s.skipIf (s.getV x == nn))

/-- `4xnn` (R104). -/
def execSneVxNn (x : Reg) (nn : Byte) (s : State) : Result := .next (s.skipIf (s.getV x != nn))

/-- `Ex9E` (R105). -/
def execSkpVx (x : Reg) (s : State) : Result := .next (s.skipIf (s.keyPressed x))

/-- `ExA1` (R106). -/
def execSknpVx (x : Reg) (s : State) : Result := .next (s.skipIf (!s.keyPressed x))

end Sys2Proof.Machine
end

