-- ==== Sys2Proof/Machine/LoadAlu.lean ====
section
/-! DEFINITION. Load immediate, ALU, index and random (41_load_alu.md). None touches memory, and none can fault. -/

namespace Sys2Proof.Machine

/-- `6xnn` (R110). -/
def execLdVxNn (x : Reg) (nn : Byte) (s : State) : Result := .next (s.setV x nn).advance

/-- `7xnn` (R111): no flag. -/
def execAddVxNn (x : Reg) (nn : Byte) (s : State) : Result := .next (s.setV x (s.getV x + nn)).advance

/-- `8xy0` (R112). -/
def execLdVxVy (x y : Reg) (s : State) : Result := .next (s.setV x (s.getV y)).advance

/-- `8xy1` (R113). -/
def execOrVxVy (x y : Reg) (s : State) : Result := .next (s.setV x (s.getV x ||| s.getV y)).advance

/-- `8xy2` (R114). -/
def execAndVxVy (x y : Reg) (s : State) : Result := .next (s.setV x (s.getV x &&& s.getV y)).advance

/-- `8xy3` (R115). -/
def execXorVxVy (x y : Reg) (s : State) : Result := .next (s.setV x (s.getV x ^^^ s.getV y)).advance

/-- `8xy4` (R116). -/
def execAddVxVy (x y : Reg) (s : State) : Result :=
  let a := s.getV x
  let b := s.getV y
  .next (s.setResultFlag x (a + b) (carryOut a b)).advance

/-- `8xy5` (R117). -/
def execSubVxVy (x y : Reg) (s : State) : Result :=
  let a := s.getV x
  let b := s.getV y
  .next (s.setResultFlag x (a - b) (noBorrow a b)).advance

/-- `8xy6` (R118). -/
def execShrVxVy (x y : Reg) (s : State) : Result :=
  let a := s.shiftOperand x y
  .next (s.setResultFlag x (a >>> 1) (shiftedOutRight a)).advance

/-- `8xyE` (R119). -/
def execShlVxVy (x y : Reg) (s : State) : Result :=
  let a := s.shiftOperand x y
  .next (s.setResultFlag x (a <<< 1) (shiftedOutLeft a)).advance

/-- `Annn` (R120). -/
def execLdINnn (nnn : Addr12) (s : State) : Result := .next (s.setI (addrOf nnn)).advance

/-- `Cxnn` (R121): the random byte is this step's input RND, a free value (10_state.md R39). -/
def execRndVxNn (x : Reg) (nn : Byte) (s : State) : Result := .next (s.setV x (s.rnd &&& nn)).advance

end Sys2Proof.Machine
end

