-- ==== Sys2Proof/Machine/Display.lean ====
section
/-! DEFINITION. Display (42_display.md): clear the screen and draw a sprite. -/

namespace Sys2Proof.Machine

/-- `00E0` (R130). -/
def execCls (s : State) : Result := .next (s.setFb Framebuffer.blank).advance

/-- The framebuffer and the collision accumulator of one draw (42_display.md R131, `FB` and `coll`). -/
structure Canvas where
  fb : Framebuffer
  coll : Bool
  deriving DecidableEq, Repr

/-- One sprite bit on its pixel: a collision when the pixel goes from on to off; then the XOR (R131). -/
def Canvas.plot (c : Canvas) (px : Fin 64) (py : Fin 32) (bit : Bool) : Canvas where
  coll := c.coll || (bit && c.fb.pixel px py)
  fb := c.fb.xorPixel px py bit

/-- One sprite row, columns 0..7, at `((vx + col) mod 64, (vy + row) mod 32)` (R131). -/
def Canvas.drawRow (c : Canvas) (vx vy row : Nat) (b : Byte) : Canvas :=
  loop (fun col c => c.plot (Fin.ofNat 64 (vx + col)) (Fin.ofNat 32 (vy + row)) (spriteBit b col)) 8 c

/-- The first `n` rows of a sprite whose row bytes are given (R131). -/
def Canvas.drawRows (c : Canvas) (vx vy : Nat) (rowByte : Nat → Byte) (n : Nat) : Canvas :=
  loop (fun row c => c.drawRow vx vy row (rowByte row)) n c

/-- The canvas after drawing `n` rows from `MEM[I]` at `(V[x], V[y])` on the state's framebuffer, the coordinates read
once before VF is written (R131). -/
def State.drawn (s : State) (x y : Reg) (n : Nat) : Canvas :=
  Canvas.drawRows { fb := s.fb, coll := false } (s.getV x).toNat (s.getV y).toNat
    (fun row => s.mem.read (s.addr row)) n

/-- `Dxyn` (R131): the range check stands before the first pixel; the collision is written to VF last, also when
`n = 0`. -/
def execDrwVxVyN (x y : Reg) (n : Fin 16) (s : State) : Result :=
  if 0 < n.val && !addrOk (s.addr (n.val - 1)) then
    .next (s.raiseIn .addressOutOfRange (.drwVxVyN x y n))
  else
    let c := s.drawn x y n.val
    .next ((s.setFb c.fb).setV VF (flagByte c.coll)).advance

end Sys2Proof.Machine
end

