-- ==== Sys2Proof/Machine/TimerMemory.lean ====
section
/-! DEFINITION. Timer and memory instructions (43_timer_memory.md). All the addresses of an instruction are checked
before its first write, and `I` is never changed (R146). -/

namespace Sys2Proof.Machine

/-- `Fx07` (R140). -/
def execLdVxDt (x : Reg) (s : State) : Result := .next (s.setV x s.dt).advance

/-- `Fx15` (R141). -/
def execLdDtVx (x : Reg) (s : State) : Result := .next (s.setDt (s.getV x)).advance

/-- `Fx18` (R142). -/
def execLdStVx (x : Reg) (s : State) : Result := .next (s.setSt (s.getV x)).advance

/-- `Fx33` (R143). -/
def execBcdVx (x : Reg) (s : State) : Result :=
  if addrOk (s.addr 2) then
    .next (s.setMem (s.mem.writeMany (s.addr 0) (bcdDigit (s.getV x)) 3)).advance
  else .next (s.raiseIn .addressOutOfRange (.bcdVx x))

/-- `Fx55` (R144): `V[0]`..`V[x]`, `V[0]` at the lowest address. -/
def execStV0Vx (x : Reg) (s : State) : Result :=
  if addrOk (s.addr x.val) then
    .next (s.setMem (s.mem.writeMany (s.addr 0) s.regAt (x.val + 1))).advance
  else .next (s.raiseIn .addressOutOfRange (.stV0Vx x))

/-- `Fx65` (R145). -/
def execLdV0Vx (x : Reg) (s : State) : Result :=
  if addrOk (s.addr x.val) then
    .next (s.setRegs (s.loadedRegs (s.addr 0) (x.val + 1))).advance
  else .next (s.raiseIn .addressOutOfRange (.ldV0Vx x))

end Sys2Proof.Machine
end

