-- ==== Sys2Proof/Machine/Agents.lean ====
section
/-! DEFINITION. The two agents, the host's moves and the ports: the instruction step (30_encoding.md R70), the timer tick
(60_exceptions.md R165), the quit request (R162), reset and ROM load (70_reset_and_hazards.md R180 to R182), and the
outputs PIXELS and BEEP (10_state.md R42, R43). -/

namespace Sys2Proof.Machine

/-! ### The instruction step (30_encoding.md R70) -/

/-- The fetch condition of R70, `PC + 1 <= 0xFFF`, on natural numbers (20_memory.md R56). -/
def State.fetchOk (s : State) : Bool := addrOk (s.pc.toNat + 1)

/-- `op <- MemRead(PC, 2)`. -/
def State.fetchWord (s : State) : Word := s.mem.readWord s.pc.toNat

/-- One instruction step with its inputs already at the ports: fetch range, decode, execute, in that order
(60_exceptions.md R158). -/
def instrStep (s : State) : Result :=
  if s.fetchOk then
    match decodeWord s.fetchWord with
    | .ok i => exec i s
    | .error _ => .next (s.raise .unsupportedOpcode (some s.fetchWord))
  else .next (s.raise .addressOutOfRange none)

/-- The values drawn for this instruction step, at the input ports (10_state.md R38, R39). -/
def State.setInputs (s : State) (keys : BitVec 16) (rnd : Byte) : State := { s with keys := keys, rnd := rnd }

/-! ### The timer tick (60_exceptions.md R165) -/

/-- A timer one down, to a floor of 0. -/
def countDown (t : Byte) : Byte := if t.toNat > 0 then t - 1#8 else t

/-- Both timers in one tick. -/
def State.timerTick (s : State) : State := { s with dt := countDown s.dt, st := countDown s.st }

/-! ### The host's moves -/

/-- The quit request: `RUN <- 0` and nothing else (60_exceptions.md R162). -/
def State.quit (s : State) : State := { s with run := false }

/-- The ROM bytes at `0x200` upward (70_reset_and_hazards.md R181). -/
def Memory.loadRom (m : Memory) (rom : List Byte) : Memory :=
  Memory.writeMany m 0x200 (fun k => rom.getD k Memory.unlisted) rom.length

/-- `Reset(ROM)` (70_reset_and_hazards.md R180): every piece of state to the value of 10_state.md R45; then the ROM, or
the halt with `RomTooLarge` (R182). The surroundings' own fields (the parameters, the moves to come, the draw counter)
are no state of the machine and stay (log 12). -/
def State.resetWith (s : State) (rom : List Byte) : State :=
  let z : State := { State.reset with cfg := s.cfg, schedule := s.schedule, draws := s.draws }
  if romFits rom then z.setMem (z.mem.loadRom rom) else z.raise .romTooLarge none

/-! ### Scheduling (60_exceptions.md R166, log 1) -/

/-- The next move: the first the schedule lists; where it lists none, an instruction step on free input values. -/
def State.nextMove (s : State) : Move :=
  match s.schedule with
  | [] => .instr (Config.freeKeys s.draws) (Config.freeRnd s.draws)
  | m :: _ => m

/-- The state with its next move taken off the schedule, or one more free draw counted. -/
def State.popMove (s : State) : State :=
  match s.schedule with
  | [] => { s with draws := s.draws + 1 }
  | _ :: ms => { s with schedule := ms }

/-- One move. The agents step only while `RUN = 1` (60_exceptions.md R170); the quit request changes nothing in the
halted state (R162); reset may be applied in any state (70_reset_and_hazards.md R180). -/
def act (m : Move) (s : State) : Result :=
  match m with
  | .instr keys rnd => if s.run then instrStep (s.setInputs keys rnd) else .fault .halted
  | .tick => if s.run then .next s.timerTick else .fault .halted
  | .quit => .next s.quit
  | .reset rom => .next (s.resetWith rom)

/-! ### Output ports -/

/-- PIXELS: bit `64*y + x` is `FB[y][x]` (10_state.md R42). -/
def State.pixels (s : State) : BitVec 2048 :=
  BitVec.ofFnLE (fun k : Fin 2048 => s.fb.pixel (Fin.ofNat 64 k.val) (Fin.ofNat 32 (k.val / 64)))

/-- BEEP: 1 exactly when `ST != 0` (10_state.md R43, 60_exceptions.md R168). -/
def State.beep (s : State) : Bool := s.st != 0#8

/-! ### Placing an instruction where the next step fetches it (log 9) -/

/-- Whether a move is an instruction step. -/
def Move.isInstr : Move → Bool
  | .instr _ _ => true
  | .tick => false
  | .quit => false
  | .reset _ => false

/-- The state with a word at PC, whose next move is an instruction step that can fetch it: RUN set, the moves before the
next instruction step dropped, and PC at the entry point where no word fits at it. -/
def State.placeWord (s : State) (op : Word) : State :=
  let pc : Word := if s.fetchOk then s.pc else 0x0200#16
  { s with
    pc := pc
    run := true
    mem := (s.mem.write pc.toNat (highByte op)).write (pc.toNat + 1) (lowByte op)
    schedule := s.schedule.dropWhile (fun m => !m.isInstr) }

end Sys2Proof.Machine
end

