-- ==== Sys2Proof/Machine/Step.lean ====
section
/-! DEFINITION. One step of the machine: the next move of the schedule (60_exceptions.md R166). -/

namespace Sys2Proof.Machine

/-- One atomic step: the next move, applied to the state with that move taken off the schedule. -/
def step (s : State) : Host.Outcome State Fault Refusal := act s.nextMove s.popMove

/-- `s` with a word of the opcode table where `step` fetches its next instruction (log 9): `w` numbered with bit 0 least
significant, high byte first in memory. -/
def State.withFetchWord (s : State) (nbits w : Nat) : State := s.placeWord (BitVec.ofNat 16 (w % 2 ^ nbits))

end Sys2Proof.Machine
end

