-- ==== Sys2Proof/Safety.lean ====
section
/-! DEFINITION. The terms statements are made in: the parts of the state and frames over them, what an instruction may
write and when it faults, the sprite's closed form, the invariant of reachable states, and runs over any schedule with
their fairness. -/

namespace Sys2Proof.Machine

/-! ### Parts of the state and frames -/

/-- One part of the state, as fine as the rules name it: one register, one stack entry, one byte, one pixel. -/
inductive Part where
  | v (r : Reg)
  | i
  | pc
  | sp
  | stack (k : Fin 16)
  | dt
  | st
  | run
  | err
  | byte (a : Nat)
  | pixel (x : Fin 64) (y : Fin 32)
  | keys
  | rnd
  | cfg
  | schedule
  | draws
  deriving DecidableEq, Repr

/-- The part holds the same in both states. -/
def Part.same (p : Part) (s t : State) : Prop :=
  match p with
  | .v r => t.v[r] = s.v[r]
  | .i => t.i = s.i
  | .pc => t.pc = s.pc
  | .sp => t.sp = s.sp
  | .stack k => t.stack[k] = s.stack[k]
  | .dt => t.dt = s.dt
  | .st => t.st = s.st
  | .run => t.run = s.run
  | .err => t.err = s.err
  | .byte a => Memory.read t.mem a = Memory.read s.mem a
  | .pixel x y => t.fb.pixel x y = s.fb.pixel x y
  | .keys => t.keys = s.keys
  | .rnd => t.rnd = s.rnd
  | .cfg => t.cfg = s.cfg
  | .schedule => t.schedule = s.schedule
  | .draws => t.draws = s.draws

/-- From `s` to `t` nothing changed but the parts `written`: every other register, flag, stack entry, byte of memory
(through `Memory.read`) and pixel is as before. -/
def Frame (written : Part → Prop) (s t : State) : Prop := ∀ p, ¬ written p → p.same s t

/-- Fault entry as 60_exceptions.md R156 gives it: RUN cleared, ERR written, every other part as before. -/
def FaultsWith (k : ErrKind) (op : Option Word) (s t : State) : Prop :=
  t.run = false ∧ t.err = some { kind := k, opcode := op, pc := s.pc } ∧ Frame (fun p => p = .run ∨ p = .err) s t

/-- The parts an instruction writes where it does not fault, as the spec lists them (10_state.md R21, R22, R24, R26, R27,
R30, R31, R35; 20_memory.md R57). -/
def writesOf (i : Instr) (s : State) (p : Part) : Prop :=
  match i with
  | .cls => (∃ x y, p = .pixel x y) ∨ p = .pc
  | .ret => p = .sp ∨ p = .pc
  | .jp _ => p = .pc
  | .call _ => (∃ k : Fin 16, k.val = s.sp.val ∧ p = .stack k) ∨ p = .sp ∨ p = .pc
  | .seVxNn _ _ => p = .pc
  | .sneVxNn _ _ => p = .pc
  | .ldVxNn x _ => p = .v x ∨ p = .pc
  | .addVxNn x _ => p = .v x ∨ p = .pc
  | .ldVxVy x _ => p = .v x ∨ p = .pc
  | .orVxVy x _ => p = .v x ∨ p = .pc
  | .andVxVy x _ => p = .v x ∨ p = .pc
  | .xorVxVy x _ => p = .v x ∨ p = .pc
  | .addVxVy x _ => p = .v x ∨ p = .v VF ∨ p = .pc
  | .subVxVy x _ => p = .v x ∨ p = .v VF ∨ p = .pc
  | .shrVxVy x _ => p = .v x ∨ p = .v VF ∨ p = .pc
  | .shlVxVy x _ => p = .v x ∨ p = .v VF ∨ p = .pc
  | .ldINnn _ => p = .i ∨ p = .pc
  | .rndVxNn x _ => p = .v x ∨ p = .pc
  | .drwVxVyN _ _ _ => (∃ x y, p = .pixel x y) ∨ p = .v VF ∨ p = .pc
  | .skpVx _ => p = .pc
  | .sknpVx _ => p = .pc
  | .ldVxDt x => p = .v x ∨ p = .pc
  | .ldDtVx _ => p = .dt ∨ p = .pc
  | .ldStVx _ => p = .st ∨ p = .pc
  | .bcdVx _ => (∃ k, k ≤ 2 ∧ p = .byte (s.i.toNat + k)) ∨ p = .pc
  | .stV0Vx x => (∃ k, k ≤ x.val ∧ p = .byte (s.i.toNat + k)) ∨ p = .pc
  | .ldV0Vx x => (∃ r : Reg, r ≤ x ∧ p = .v r) ∨ p = .pc

/-- The fault an instruction meets in a state, by its own check (60_exceptions.md R152 to R154, R158). -/
def faultOf (i : Instr) (s : State) : Option ErrKind :=
  match i with
  | .ret => if s.sp.val = 0 then some .stackUnderflow else none
  | .call _ => if s.sp.val = 16 then some .stackOverflow else none
  | .drwVxVyN _ _ n => if n.val > 0 ∧ s.i.toNat + n.val - 1 > 0xFFF then some .addressOutOfRange else none
  | .bcdVx _ => if s.i.toNat + 2 > 0xFFF then some .addressOutOfRange else none
  | .stV0Vx x => if s.i.toNat + x.val > 0xFFF then some .addressOutOfRange else none
  | .ldV0Vx x => if s.i.toNat + x.val > 0xFFF then some .addressOutOfRange else none
  | _ => none

/-- The five instructions that write VF as a flag (10_state.md R22). -/
def producesFlag (i : Instr) : Prop :=
  (∃ x y, i = .addVxVy x y) ∨ (∃ x y, i = .subVxVy x y) ∨ (∃ x y, i = .shrVxVy x y) ∨ (∃ x y, i = .shlVxVy x y) ∨
    ∃ x y n, i = .drwVxVyN x y n

/-! ### The sprite in closed form (42_display.md R132) -/

/-- Whether an `n`-row sprite at `(V[x], V[y])` has a 1 bit on pixel `(px, py)`: the pixel's column and row within the
sprite are its distances from the start coordinates, modulo 64 and 32. -/
def State.spriteOn (s : State) (x y : Reg) (n : Nat) (px : Fin 64) (py : Fin 32) : Bool :=
  let col := (px.val + 64 - s.v[x].toNat % 64) % 64
  let row := (py.val + 32 - s.v[y].toNat % 32) % 32
  decide (col < 8) && decide (row < n) && (Memory.read s.mem (s.i.toNat + row)).getLsbD (7 - col)

/-! ### The invariant of reachable states -/

/-- An error record that agrees with its kind: the word, where one was fetched, is one the kind can be raised for
(60_exceptions.md R151 to R155, 10_state.md R33). -/
def ErrRecord.plausible (e : ErrRecord) : Prop :=
  match e.kind, e.opcode with
  | .unsupportedOpcode, some op => supported op = false
  | .stackOverflow, some op => op.toNat / 4096 = 2
  | .stackUnderflow, some op => op = 0x00EE#16
  | .addressOutOfRange, some op =>
      op.toNat / 4096 = 0xD ∨
        (op.toNat / 4096 = 0xF ∧ (op.toNat % 256 = 0x33 ∨ op.toNat % 256 = 0x55 ∨ op.toNat % 256 = 0x65))
  | .addressOutOfRange, none => e.pc.toNat ≥ 0xFFF
  | .romTooLarge, none => e.pc = 0x0200#16
  | _, _ => False

/-- What holds of every reachable state: memory is canonical; `I` is in `0x000..0xFFF` (10_state.md R26); `PC` is in
`0x000..0x1002` (R25); stack entries are return addresses, at most `0x1000` (R25); an error is recorded only in the
halted state, by the instruction PC still points at, whose word, where one was fetched, is the one memory holds there
(R33, 60_exceptions.md R156, R159). -/
structure State.Inv (s : State) : Prop where
  mem_wf : s.mem.wf = true
  i_range : s.i.toNat ≤ 0xFFF
  pc_range : s.pc.toNat ≤ 0x1002
  stack_range : ∀ k : Fin 16, s.stack[k].toNat ≤ 0x1000
  running_no_err : s.run = true → s.err = none
  err_pc : ∀ e, s.err = some e → e.pc = s.pc
  err_plausible : ∀ e, s.err = some e → e.plausible
  err_opcode : ∀ e op, s.err = some e → e.opcode = some op → s.mem.readWord s.pc.toNat = op

/-! ### Reset values -/

/-- The registers, stack, timers and screen as the table of 10_state.md R45 gives them after any reset. -/
def State.ResetValues (t : State) : Prop :=
  t.pc = 0x0200#16 ∧ (∀ r : Reg, t.v[r] = 0x00#8) ∧ t.i = 0x0000#16 ∧ t.sp.val = 0 ∧
    (∀ k : Fin 16, t.stack[k] = 0x0000#16) ∧ t.dt = 0x00#8 ∧ t.st = 0x00#8 ∧ ∀ x y, t.fb.pixel x y = false

/-! ### The end of a run (60_exceptions.md R171) -/

/-- A clean end: halted with no error. -/
def State.cleanEnd (s : State) : Prop := s.run = false ∧ s.err = none

/-- A failed end: halted with an error. -/
def State.failedEnd (s : State) : Prop := s.run = false ∧ s.err ≠ none

/-! ### Runs over any schedule -/

/-- The instruction the next instruction step would execute, if it would execute one. -/
def State.fetched (s : State) : Option Instr :=
  if s.fetchOk then
    match decodeWord s.fetchWord with
    | .ok i => some i
    | .error _ => none
  else none

/-- The moves of a list in order, up to the first that has no next state. -/
def runMoves : List Move → State → Host.Outcome State Fault Refusal
  | [], s => .next s
  | m :: ms, s =>
    match act m s with
    | .next t => runMoves ms t
    | .fault r => .fault r
    | .refused r => .refused r

/-- An infinite run: `f n` is the state before move `moves n`. -/
def IsRun (moves : Nat → Move) (f : Nat → State) : Prop := ∀ n, act (moves n) (f n) = .next (f (n + 1))

/-- Weak fairness (60_exceptions.md R167): if RUN stays 1 throughout, both the instruction step and the timer tick occur
infinitely often. -/
def WeaklyFair (moves : Nat → Move) (f : Nat → State) : Prop :=
  (∀ n, (f n).run = true) →
    (∀ n, ∃ m, n ≤ m ∧ (moves m).isInstr = true) ∧ (∀ n, ∃ m, n ≤ m ∧ moves m = .tick)

end Sys2Proof.Machine
end

