-- ==== Sys2Proof/Certificates/Slice0/Obligations.lean ====
section
/-! DEFINITION. The statements about this model, from the numbered rules of spec/. A clause marked "decision D<n>" rests on
a choice the spec marks as its own (92_eei_decisions.md), not on the source. -/

open Sys2Proof Sys2Proof.Machine

/-! ### Encoding -/

/-- Decoding an instruction's bytes gives the instruction back, with every operand at every value, and the bytes after
it (30_encoding.md section 2, section 4; selector values by decision D2). -/
def Obligations.DecodeOfEncodedInstruction : Prop :=
  ∀ (i : Instr) (rest : List Byte), decode (encode i ++ rest) = .ok (i, rest)

/-- Each supported word has one meaning: encoding what a word decodes to gives the word back (30_encoding.md
section 4). -/
def Obligations.EncodeOfDecodedWord : Prop := ∀ (op : Word) (i : Instr), decodeWord op = .ok i → encodeWord i = op

/-- R75: the decoder is the opcode map: the rows are pairwise disjoint, a word decodes by the row that selects it, and a
word that no row selects is unsupported. -/
def Obligations.DecoderFollowsOpcodeMap : Prop :=
  opcodeMap.Pairwise (fun r r' => ∀ op, ¬ (r.selects op = true ∧ r'.selects op = true)) ∧
    (∀ op, ∀ r ∈ opcodeMap, op &&& r.mask = r.pattern → decodeWord op = .ok (r.build op)) ∧
    ∀ op, (∀ r ∈ opcodeMap, op &&& r.mask ≠ r.pattern) → decodeWord op = .error (.unsupported op)

/-- A word of every family that has an instruction (00_scope.md R12: the top nibble), written out from the encodings,
decodes to the instruction it stands for, and a word of each family that has none (5, 9, B) decodes to none
(95_test_vectors.md 2.1 to 2.8). -/
def Obligations.SampleWordsDecode : Prop :=
  decode [0x00#8, 0xEE#8] = .ok (.ret, []) ∧ decode [0x12#8, 0x34#8] = .ok (.jp 0x234#12, []) ∧
    decode [0x2A#8, 0xBC#8] = .ok (.call 0xABC#12, []) ∧ decode [0x31#8, 0x42#8] = .ok (.seVxNn 1 0x42#8, []) ∧
    decode [0x41#8, 0x42#8] = .ok (.sneVxNn 1 0x42#8, []) ∧ decode [0x60#8, 0x12#8] = .ok (.ldVxNn 0 0x12#8, []) ∧
    decode [0x73#8, 0x02#8] = .ok (.addVxNn 3 0x02#8, []) ∧ decode [0x8A#8, 0xB4#8] = .ok (.addVxVy 0xA 0xB, []) ∧
    decode [0xA2#8, 0x0A#8] = .ok (.ldINnn 0x20A#12, []) ∧ decode [0xC3#8, 0x0F#8] = .ok (.rndVxNn 3 0x0F#8, []) ∧
    decode [0xD1#8, 0x25#8] = .ok (.drwVxVyN 1 2 5, []) ∧ decode [0xE2#8, 0x9E#8] = .ok (.skpVx 2, []) ∧
    decode [0xFE#8, 0x65#8] = .ok (.ldV0Vx 0xE, []) ∧ decode [0x51#8, 0x20#8] = .error (.unsupported 0x5120#16) ∧
    decode [0x91#8, 0x20#8] = .error (.unsupported 0x9120#16) ∧
    decode [0xB2#8, 0x00#8] = .error (.unsupported 0xB200#16)

/-- R77: the unsupported words are exactly those of the list (a) to (g), which are those that match no row of the opcode
map, and an instruction step that fetches one raises UnsupportedOpcode: RUN cleared, the word and PC recorded (R151). -/
def Obligations.UnsupportedWordRaises : Prop :=
  (∀ op, supported op = false ↔ ∀ r ∈ opcodeMap, op &&& r.mask ≠ r.pattern) ∧
    ∀ (s : State) (keys : BitVec 16) (rnd : Byte), s.run = true → s.nextMove = .instr keys rnd →
      s.pc.toNat + 1 ≤ 0xFFF →
      supported (wordOfBytes (s.mem.read s.pc.toNat) (s.mem.read (s.pc.toNat + 1))) = false →
      ∃ t, step s = .next t ∧ t.run = false ∧
        t.err = some { kind := .unsupportedOpcode,
                       opcode := some (wordOfBytes (s.mem.read s.pc.toNat) (s.mem.read (s.pc.toNat + 1))),
                       pc := s.pc }

/-! ### The instruction step -/

/-- R70: while RUN is 1 and an instruction step comes next, with inputs KEYS and RND: where `PC + 1 > 0xFFF` it records
`(AddressOutOfRange, none, PC)` and clears RUN; where the bytes at PC decode to an instruction, the step is `exec` of it at
the state with the inputs at the ports and the move taken off the schedule; where they decode to none, it raises
UnsupportedOpcode; and while RUN is 0 it has no next state. -/
def Obligations.StepRunsDecodedInstruction : Prop :=
  ∀ (s : State) (keys : BitVec 16) (rnd : Byte), s.nextMove = .instr keys rnd →
    let b0 := s.mem.read s.pc.toNat
    let b1 := s.mem.read (s.pc.toNat + 1)
    (s.run = true → s.pc.toNat + 1 > 0xFFF →
      ∃ t, step s = .next t ∧ t.run = false ∧
        t.err = some { kind := .addressOutOfRange, opcode := none, pc := s.pc }) ∧
    (s.run = true → s.pc.toNat + 1 ≤ 0xFFF → ∀ i, decode [b0, b1] = .ok (i, []) →
      step s = exec i { s.popMove with keys := keys, rnd := rnd }) ∧
    (s.run = true → s.pc.toNat + 1 ≤ 0xFFF → ∀ e, decode [b0, b1] = .error e →
      ∃ t, step s = .next t ∧ t.run = false ∧
        t.err = some { kind := .unsupportedOpcode, opcode := some (b0 ++ b1), pc := s.pc }) ∧
    (s.run = false → ∀ t, step s ≠ .next t)

/-- A fault of the fetch or of the decoder leaves every part of the machine but RUN and ERR as it was (60_exceptions.md
sections 1, 2; that a faulting step writes nothing else is the spec's decision D12). -/
def Obligations.FetchFaultsArePrecise : Prop :=
  ∀ (s : State) (keys : BitVec 16) (rnd : Byte), s.run = true → s.nextMove = .instr keys rnd → s.fetched = none →
    ∃ t, step s = .next t ∧ t.run = false ∧ t.err ≠ none ∧
      Frame (fun p => p ∈ [.run, .err, .keys, .rnd, .schedule, .draws]) s t

/-- The model's own `withFetchWord` (log 9): the very next step runs the instruction of the placed word, at the state
with the word in memory and the step's inputs at the ports. -/
def Obligations.PlacedWordRunsNext : Prop :=
  ∀ (s : State) (w : Nat) (i : Instr), decodeTableWord 16 w = some i →
    ∃ keys rnd, step (s.withFetchWord 16 w) = exec i ((s.withFetchWord 16 w).popMove.setInputs keys rnd)

/-! ### Control transfer -/

/-- R101: JP sets PC to `nnn` and changes nothing else. -/
def Obligations.JumpSetsPc : Prop :=
  ∀ (nnn : Addr12) (s : State), ∃ t, exec (.jp nnn) s = .next t ∧ t.pc.toNat = nnn.toNat ∧ Frame (fun p => p = .pc) s t

/-- R102, R152: CALL pushes `PC + 2`, moves SP up and sets PC to `nnn`; with 16 addresses on the stack it raises
StackOverflow with the `2nnn` word, pushes nothing and leaves PC. -/
def Obligations.CallPushesReturnAddress : Prop :=
  ∀ (nnn : Addr12) (s : State),
    (∀ k : Fin 16, s.sp.val = k.val →
      ∃ t, exec (.call nnn) s = .next t ∧ t.stack[k] = s.pc + 2#16 ∧ t.sp.val = k.val + 1 ∧ t.pc.toNat = nnn.toNat ∧
        Frame (fun p => p = .stack k ∨ p = .sp ∨ p = .pc) s t) ∧
    (s.sp.val = 16 →
      ∃ t, exec (.call nnn) s = .next t ∧
        t.err = some { kind := .stackOverflow, opcode := some (BitVec.ofNat 16 (0x2000 + nnn.toNat)), pc := s.pc } ∧
        t.run = false ∧ t.stack = s.stack ∧ t.sp = s.sp ∧ t.pc = s.pc)

/-- R100, R153: RET makes the popped entry the next PC as it stands and moves SP down; with an empty stack it raises
StackUnderflow with the word `0x00EE` and leaves SP, PC and the stack. -/
def Obligations.ReturnPopsPc : Prop :=
  ∀ s : State,
    (∀ k : Fin 16, s.sp.val = k.val + 1 →
      ∃ t, exec .ret s = .next t ∧ t.pc = s.stack[k] ∧ t.sp.val = k.val ∧ Frame (fun p => p = .sp ∨ p = .pc) s t) ∧
    (s.sp.val = 0 →
      ∃ t, exec .ret s = .next t ∧
        t.err = some { kind := .stackUnderflow, opcode := some 0x00EE#16, pc := s.pc } ∧
        t.run = false ∧ t.stack = s.stack ∧ t.sp = s.sp ∧ t.pc = s.pc)

/-- The source's call and return symmetry (95_test_vectors.md S2): a RET in any later state whose stack depth is the one
the CALL left, and whose entries on the stack are those the CALL left (balanced calls and returns in between may leave
other stale entries above), resumes at the call's `PC + 2` with the stack depth of before the call. -/
def Obligations.ReturnUndoesCall : Prop :=
  ∀ (nnn : Addr12) (s t u : State), s.sp.val < 16 → exec (.call nnn) s = .next t → u.sp = t.sp →
    (∀ k : Fin 16, k.val < u.sp.val → u.stack[k] = t.stack[k]) →
    ∃ w, exec .ret u = .next w ∧ w.pc = s.pc + 2#16 ∧ w.sp = s.sp

/-- R103, R104: SE skips exactly when `V[x] = nn`, SNE exactly when `V[x] != nn`; neither changes anything but PC. -/
def Obligations.ImmediateSkips : Prop :=
  ∀ (x : Reg) (nn : Byte) (s : State),
    (∃ t, exec (.seVxNn x nn) s = .next t ∧ t.pc = (if s.v[x] = nn then s.pc + 4#16 else s.pc + 2#16) ∧
      Frame (fun p => p = .pc) s t) ∧
    (∃ t, exec (.sneVxNn x nn) s = .next t ∧ t.pc = (if s.v[x] = nn then s.pc + 2#16 else s.pc + 4#16) ∧
      Frame (fun p => p = .pc) s t)

/-- SKP skips exactly when the key numbered by the whole byte `V[x]` is one of the 16 keys and is pressed in this step's
KEYS; SKNP exactly when it is not (a number above 15 counts as not pressed: decision D9). -/
def Obligations.KeySkips : Prop :=
  ∀ (x : Reg) (s : State),
    (∃ t, exec (.skpVx x) s = .next t ∧
      t.pc = (if s.v[x].toNat ≤ 15 ∧ s.keys.getLsbD s.v[x].toNat = true then s.pc + 4#16 else s.pc + 2#16) ∧
      Frame (fun p => p = .pc) s t) ∧
    (∃ t, exec (.sknpVx x) s = .next t ∧
      t.pc = (if s.v[x].toNat ≤ 15 ∧ s.keys.getLsbD s.v[x].toNat = true then s.pc + 2#16 else s.pc + 4#16) ∧
      Frame (fun p => p = .pc) s t)

/-- In every state exactly one of SE and SNE with the same operands skips, and exactly one of SKP and SKNP
(40_control_transfer.md, corner cases of SNE and SKNP). -/
def Obligations.OppositeSkipsDisagree : Prop :=
  ∀ (x : Reg) (nn : Byte) (s : State),
    (∃ t u, exec (.seVxNn x nn) s = .next t ∧ exec (.sneVxNn x nn) s = .next u ∧
      (t.pc = s.pc + 4#16 ∧ u.pc = s.pc + 2#16 ∨ t.pc = s.pc + 2#16 ∧ u.pc = s.pc + 4#16)) ∧
    (∃ t u, exec (.skpVx x) s = .next t ∧ exec (.sknpVx x) s = .next u ∧
      (t.pc = s.pc + 4#16 ∧ u.pc = s.pc + 2#16 ∨ t.pc = s.pc + 2#16 ∧ u.pc = s.pc + 4#16))

/-! ### Load immediate, ALU, index, random -/

/-- R110: LD Vx, nn. -/
def Obligations.LoadImmediate : Prop :=
  ∀ (x : Reg) (nn : Byte) (s : State),
    ∃ t, exec (.ldVxNn x nn) s = .next t ∧ t.v[x] = nn ∧ t.pc = s.pc + 2#16 ∧ Frame (fun p => p = .v x ∨ p = .pc) s t

/-- ADD Vx, nn wraps modulo 256; VF is not written unless `x = F` names it (41_load_alu.md section 2; VF by decision
D6). -/
def Obligations.AddImmediateWraps : Prop :=
  ∀ (x : Reg) (nn : Byte) (s : State),
    ∃ t, exec (.addVxNn x nn) s = .next t ∧ t.v[x].toNat = (s.v[x].toNat + nn.toNat) % 256 ∧ t.pc = s.pc + 2#16 ∧
      Frame (fun p => p = .v x ∨ p = .pc) s t

/-- Assign, OR, AND, XOR, bit by bit; VF is not written unless `x = F` names it (41_load_alu.md section 3; that the
logical operations leave VF is decision D6). -/
def Obligations.MoveAndLogic : Prop :=
  ∀ (x y : Reg) (s : State),
    (∃ t, exec (.ldVxVy x y) s = .next t ∧ t.v[x] = s.v[y] ∧ t.pc = s.pc + 2#16 ∧
      Frame (fun p => p = .v x ∨ p = .pc) s t) ∧
    (∃ t, exec (.orVxVy x y) s = .next t ∧ (∀ k, t.v[x].getLsbD k = (s.v[x].getLsbD k || s.v[y].getLsbD k)) ∧
      t.pc = s.pc + 2#16 ∧ Frame (fun p => p = .v x ∨ p = .pc) s t) ∧
    (∃ t, exec (.andVxVy x y) s = .next t ∧ (∀ k, t.v[x].getLsbD k = (s.v[x].getLsbD k && s.v[y].getLsbD k)) ∧
      t.pc = s.pc + 2#16 ∧ Frame (fun p => p = .v x ∨ p = .pc) s t) ∧
    (∃ t, exec (.xorVxVy x y) s = .next t ∧ (∀ k, t.v[x].getLsbD k = (s.v[x].getLsbD k ^^ s.v[y].getLsbD k)) ∧
      t.pc = s.pc + 2#16 ∧ Frame (fun p => p = .v x ∨ p = .pc) s t)

/-- R116: ADD Vx, Vy with `x` not F: `V[x]` is the sum modulo 256 and VF the carry of the true sum, written also when
there is no carry, whatever `y` is. With `x = F`: AddIntoFlagRegister. -/
def Obligations.AddSetsCarry : Prop :=
  ∀ (x y : Reg) (s : State), x ≠ VF →
    ∃ t, exec (.addVxVy x y) s = .next t ∧ t.v[x].toNat = (s.v[x].toNat + s.v[y].toNat) % 256 ∧
      t.v[VF] = (if s.v[x].toNat + s.v[y].toNat > 255 then 1#8 else 0#8) ∧ t.pc = s.pc + 2#16 ∧
      Frame (fun p => p = .v x ∨ p = .v VF ∨ p = .pc) s t

/-- ADD VF, Vy: the sum is lost and VF ends as its carry, because the flag is written after the result (the order of the
two writes is the spec's decision D5). -/
def Obligations.AddIntoFlagRegister : Prop :=
  ∀ (y : Reg) (s : State),
    ∃ t, exec (.addVxVy VF y) s = .next t ∧
      t.v[VF] = (if s.v[VF].toNat + s.v[y].toNat > 255 then 1#8 else 0#8) ∧ t.pc = s.pc + 2#16 ∧
      Frame (fun p => p = .v VF ∨ p = .pc) s t

/-- SUB Vx, Vy: VF ends as 1 exactly when `V[x] >= V[y]` before the step (polarity by decision D3, write order by decision
D5); `V[x]` is the difference modulo 256 where `x` is not F. -/
def Obligations.SubSetsNoBorrow : Prop :=
  ∀ (x y : Reg) (s : State),
    ∃ t, exec (.subVxVy x y) s = .next t ∧
      (x ≠ VF → t.v[x].toNat = (s.v[x].toNat + 256 - s.v[y].toNat) % 256) ∧
      t.v[VF] = (if s.v[x].toNat ≥ s.v[y].toNat then 1#8 else 0#8) ∧ t.pc = s.pc + 2#16 ∧
      Frame (fun p => p = .v x ∨ p = .v VF ∨ p = .pc) s t

/-- SHR Vx, Vy for either setting of SHIFT_SOURCE: the source register is halved into `V[x]`, its bit 0 goes to VF
(decisions D4, D5). -/
def Obligations.ShiftRight : Prop :=
  ∀ (x y : Reg) (s : State) (a : Byte), a = (if s.cfg.shiftSource = .vx then s.v[x] else s.v[y]) →
    ∃ t, exec (.shrVxVy x y) s = .next t ∧ (x ≠ VF → t.v[x].toNat = a.toNat / 2) ∧
      t.v[VF].toNat = a.toNat % 2 ∧ t.pc = s.pc + 2#16 ∧ Frame (fun p => p = .v x ∨ p = .v VF ∨ p = .pc) s t

/-- SHL Vx, Vy for either setting of SHIFT_SOURCE: the source register is doubled modulo 256 into `V[x]`, its bit 7 goes
to VF (decisions D4, D5). -/
def Obligations.ShiftLeft : Prop :=
  ∀ (x y : Reg) (s : State) (a : Byte), a = (if s.cfg.shiftSource = .vx then s.v[x] else s.v[y]) →
    ∃ t, exec (.shlVxVy x y) s = .next t ∧ (x ≠ VF → t.v[x].toNat = a.toNat * 2 % 256) ∧
      t.v[VF].toNat = a.toNat / 128 ∧ t.pc = s.pc + 2#16 ∧ Frame (fun p => p = .v x ∨ p = .v VF ∨ p = .pc) s t

/-- R120: LD I, nnn. -/
def Obligations.LoadIndex : Prop :=
  ∀ (nnn : Addr12) (s : State),
    ∃ t, exec (.ldINnn nnn) s = .next t ∧ t.i.toNat = nnn.toNat ∧ t.pc = s.pc + 2#16 ∧
      Frame (fun p => p = .i ∨ p = .pc) s t

/-- RND Vx, nn: this step's input RND masked by `nn`, for every value of the input (41_load_alu.md section 4; that the
random byte is a free input is decision D21). -/
def Obligations.RandomMasked : Prop :=
  ∀ (x : Reg) (nn : Byte) (s : State),
    ∃ t, exec (.rndVxNn x nn) s = .next t ∧ (∀ k, t.v[x].getLsbD k = (s.rnd.getLsbD k && nn.getLsbD k)) ∧
      t.pc = s.pc + 2#16 ∧ Frame (fun p => p = .v x ∨ p = .pc) s t

/-! ### Display -/

/-- R130: CLS turns every pixel off and advances PC; VF and everything else stay. -/
def Obligations.ClearScreen : Prop :=
  ∀ s : State, ∃ t, exec .cls s = .next t ∧ (∀ x y, t.fb.pixel x y = false) ∧ t.pc = s.pc + 2#16 ∧
    Frame (fun p => (∃ x y, p = .pixel x y) ∨ p = .pc) s t

/-- DRW in closed form (42_display.md, sprite algorithm and geometry of one draw): where its rows lie in memory, or
`n = 0` (decision D32), every pixel is XORed with the sprite's bit on it, wrapped on both axes; VF is 1 when some 1 bit
lands on a pixel that was on, else 0; nothing else changes but PC. -/
def Obligations.DrawXorsSprite : Prop :=
  ∀ (x y : Reg) (n : Fin 16) (s : State), (n.val = 0 ∨ s.i.toNat + n.val - 1 ≤ 0xFFF) →
    ∃ t, exec (.drwVxVyN x y n) s = .next t ∧
      (∀ px py, t.fb.pixel px py = (s.fb.pixel px py ^^ s.spriteOn x y n.val px py)) ∧
      (t.v[VF] = 1#8 ∧ (∃ px py, s.spriteOn x y n.val px py = true ∧ s.fb.pixel px py = true) ∨
        t.v[VF] = 0#8 ∧ ∀ px py, s.spriteOn x y n.val px py = true → s.fb.pixel px py = false) ∧
      t.pc = s.pc + 2#16 ∧ Frame (fun p => (∃ px py, p = .pixel px py) ∨ p = .v VF ∨ p = .pc) s t

/-- Drawing the same sprite at the same place twice restores the framebuffer, and the second draw reports a collision
exactly when some 1 bit hit a pixel that was off before the first (42_display.md section on geometry; 90_conflicts.md
C3). The coordinates stay the same because neither is VF. -/
def Obligations.DrawTwiceRestores : Prop :=
  ∀ (x y : Reg) (n : Fin 16) (s : State), x ≠ VF → y ≠ VF → (n.val = 0 ∨ s.i.toNat + n.val - 1 ≤ 0xFFF) →
    ∃ t u, exec (.drwVxVyN x y n) s = .next t ∧ exec (.drwVxVyN x y n) t = .next u ∧ u.fb = s.fb ∧
      (u.v[VF] = 1#8 ∧ (∃ px py, s.spriteOn x y n.val px py = true ∧ s.fb.pixel px py = false) ∨
        u.v[VF] = 0#8 ∧ ∀ px py, s.spriteOn x y n.val px py = true → s.fb.pixel px py = true)

/-- DRW with a row above `0xFFF` raises AddressOutOfRange with its own word and draws nothing (decision D12). -/
def Obligations.DrawOutOfRange : Prop :=
  ∀ (x y : Reg) (n : Fin 16) (s : State), n.val > 0 → s.i.toNat + n.val - 1 > 0xFFF →
    ∃ t, exec (.drwVxVyN x y n) s = .next t ∧
      FaultsWith .addressOutOfRange (some (BitVec.ofNat 16 (0xD000 + x.val * 256 + y.val * 16 + n.val))) s t

/-! ### Timers and memory -/

/-- The three timer instructions (which pattern does what by decision D7). -/
def Obligations.TimerAccess : Prop :=
  ∀ (x : Reg) (s : State),
    (∃ t, exec (.ldVxDt x) s = .next t ∧ t.v[x] = s.dt ∧ t.pc = s.pc + 2#16 ∧
      Frame (fun p => p = .v x ∨ p = .pc) s t) ∧
    (∃ t, exec (.ldDtVx x) s = .next t ∧ t.dt = s.v[x] ∧ t.pc = s.pc + 2#16 ∧ Frame (fun p => p = .dt ∨ p = .pc) s t) ∧
    (∃ t, exec (.ldStVx x) s = .next t ∧ t.st = s.v[x] ∧ t.pc = s.pc + 2#16 ∧ Frame (fun p => p = .st ∨ p = .pc) s t)

/-- R143: BCD stores hundreds, tens and ones at `I`, `I+1`, `I+2` and changes no other byte; with `I + 2 > 0xFFF` it
raises AddressOutOfRange and writes no byte. -/
def Obligations.BcdStoresDigits : Prop :=
  ∀ (x : Reg) (s : State),
    (s.i.toNat + 2 ≤ 0xFFF →
      ∃ t, exec (.bcdVx x) s = .next t ∧ (t.mem.read s.i.toNat).toNat = s.v[x].toNat / 100 ∧
        (t.mem.read (s.i.toNat + 1)).toNat = s.v[x].toNat / 10 % 10 ∧
        (t.mem.read (s.i.toNat + 2)).toNat = s.v[x].toNat % 10 ∧ t.pc = s.pc + 2#16 ∧
        Frame (fun p => (∃ k, k ≤ 2 ∧ p = .byte (s.i.toNat + k)) ∨ p = .pc) s t) ∧
    (s.i.toNat + 2 > 0xFFF →
      ∃ t, exec (.bcdVx x) s = .next t ∧ t.run = false ∧ (∃ e, t.err = some e ∧ e.kind = .addressOutOfRange) ∧
        ∀ a, t.mem.read a = s.mem.read a)

/-- LD [I], Vx stores `V[0]`..`V[x]` at `I`..`I+x` and changes no other byte, and not `I` (decision D8); with
`I + x > 0xFFF` it raises AddressOutOfRange and stores nothing (decision D12). -/
def Obligations.StoreRegisters : Prop :=
  ∀ (x : Reg) (s : State),
    (s.i.toNat + x.val ≤ 0xFFF →
      ∃ t, exec (.stV0Vx x) s = .next t ∧ (∀ r : Reg, r ≤ x → t.mem.read (s.i.toNat + r.val) = s.v[r]) ∧
        t.pc = s.pc + 2#16 ∧ Frame (fun p => (∃ r : Reg, r ≤ x ∧ p = .byte (s.i.toNat + r.val)) ∨ p = .pc) s t) ∧
    (s.i.toNat + x.val > 0xFFF →
      ∃ t, exec (.stV0Vx x) s = .next t ∧
        FaultsWith .addressOutOfRange (some (BitVec.ofNat 16 (0xF055 + x.val * 256))) s t)

/-- LD Vx, [I] loads `V[0]`..`V[x]` from `I`..`I+x` and changes no other register, and not `I` (decision D8); with
`I + x > 0xFFF` it raises AddressOutOfRange and loads nothing (decision D12). -/
def Obligations.LoadRegisters : Prop :=
  ∀ (x : Reg) (s : State),
    (s.i.toNat + x.val ≤ 0xFFF →
      ∃ t, exec (.ldV0Vx x) s = .next t ∧ (∀ r : Reg, r ≤ x → t.v[r] = s.mem.read (s.i.toNat + r.val)) ∧
        t.pc = s.pc + 2#16 ∧ Frame (fun p => (∃ r : Reg, r ≤ x ∧ p = .v r) ∨ p = .pc) s t) ∧
    (s.i.toNat + x.val > 0xFFF →
      ∃ t, exec (.ldV0Vx x) s = .next t ∧
        FaultsWith .addressOutOfRange (some (BitVec.ofNat 16 (0xF065 + x.val * 256))) s t)

/-- A register block stored and, at any later state with that memory and that `I`, loaded again comes back
(43_timer_memory.md section 2; range and `I` by decision D8). -/
def Obligations.LoadAfterStoreRestores : Prop :=
  ∀ (x : Reg) (s t u : State), s.i.toNat + x.val ≤ 0xFFF → exec (.stV0Vx x) s = .next t → u.mem = t.mem → u.i = s.i →
    ∃ w, exec (.ldV0Vx x) u = .next w ∧ (∀ r : Reg, r ≤ x → w.v[r] = s.v[r]) ∧ ∀ r : Reg, x < r → w.v[r] = u.v[r]

/-- A store is seen by the next instruction fetch (20_memory.md section 4; decision D18): where a register block store
covers the two bytes at the next PC, the word fetched next is the two registers stored there. -/
def Obligations.StoreSeenByNextFetch : Prop :=
  ∀ (x : Reg) (k : Fin 15) (s : State), s.i.toNat + x.val ≤ 0xFFF → k.val + 1 ≤ x.val →
    (s.pc + 2#16).toNat = s.i.toNat + k.val →
    ∃ t, exec (.stV0Vx x) s = .next t ∧ t.fetchWord = wordOfBytes s.v[k.castSucc] s.v[k.succ]

/-! ### All instructions -/

/-- Every instruction that meets no fault of its own completes, and writes only the parts the spec lists for it
(10_state.md sections 1 to 6, 20_memory.md section 3): every other register, flag, stack entry, byte and pixel is as
before. -/
def Obligations.InstructionsWriteOnlyTheirParts : Prop :=
  ∀ (i : Instr) (s : State), faultOf i s = none → ∃ t, exec i s = .next t ∧ Frame (writesOf i s) s t

/-- Every instruction that meets a fault of its own records it with its own word and PC, clears RUN and changes nothing
else (60_exceptions.md sections 1, 2; decision D12). -/
def Obligations.InstructionFaultsArePrecise : Prop :=
  ∀ (i : Instr) (s : State) (k : ErrKind), faultOf i s = some k →
    ∃ t, exec i s = .next t ∧ FaultsWith k (some (encodeWord i)) s t

/-- The flag writers leave 0 or 1 in VF (10_state.md section 2). -/
def Obligations.FlagsAreZeroOrOne : Prop :=
  ∀ (i : Instr) (s : State), producesFlag i → faultOf i s = none →
    ∃ t, exec i s = .next t ∧ (t.v[VF] = 0#8 ∨ t.v[VF] = 1#8)

/-- R24: the complete PC policy of the instructions that do not fault; a step that halts the machine leaves PC
unchanged, and so does the timer tick. What the key test `keyPressed` answers is KeySkips' matter. -/
def Obligations.PcPolicy : Prop :=
  (∀ (i : Instr) (s : State), faultOf i s = none →
    ∃ t, exec i s = .next t ∧
      match i with
      | .jp nnn => t.pc.toNat = nnn.toNat
      | .call nnn => t.pc.toNat = nnn.toNat
      | .ret => ∀ k : Fin 16, s.sp.val = k.val + 1 → t.pc = s.stack[k]
      | .seVxNn x nn => t.pc = (if s.v[x] = nn then s.pc + 4#16 else s.pc + 2#16)
      | .sneVxNn x nn => t.pc = (if s.v[x] ≠ nn then s.pc + 4#16 else s.pc + 2#16)
      | .skpVx x => t.pc = (if s.keyPressed x then s.pc + 4#16 else s.pc + 2#16)
      | .sknpVx x => t.pc = (if s.keyPressed x then s.pc + 2#16 else s.pc + 4#16)
      | _ => t.pc = s.pc + 2#16) ∧
  (∀ s t : State, s.run = true → (∀ rom, s.nextMove ≠ .reset rom) → step s = .next t → t.run = false → t.pc = s.pc) ∧
  ∀ s t : State, s.nextMove = .tick → step s = .next t → t.pc = s.pc

/-- KEYS reaches only SKP and SKNP, RND only RND Vx, nn, and SHIFT_SOURCE only the shifts: any other instruction does the
same whatever they are (10_state.md section 8; 00_scope.md section 4). -/
def Obligations.InputsReachOnlyTheirReaders : Prop :=
  (∀ (i : Instr) (s t : State) (keys : BitVec 16), (∀ x, i ≠ .skpVx x) → (∀ x, i ≠ .sknpVx x) →
    exec i s = .next t → exec i { s with keys := keys } = .next { t with keys := keys }) ∧
  (∀ (i : Instr) (s t : State) (rnd : Byte), (∀ x nn, i ≠ .rndVxNn x nn) →
    exec i s = .next t → exec i { s with rnd := rnd } = .next { t with rnd := rnd }) ∧
  ∀ (i : Instr) (s t : State) (cfg : Config), (∀ x y, i ≠ .shrVxVy x y) → (∀ x y, i ≠ .shlVxVy x y) →
    exec i s = .next t → exec i { s with cfg := cfg } = .next { t with cfg := cfg }

/-- Nothing can observe a stack entry at or above SP (10_state.md section 4): two states that differ only in such entries
step to states that differ only in such entries. -/
def Obligations.StaleStackUnobservable : Prop :=
  ∀ (i : Instr) (s t : State) (stack : Vector Word 16), (∀ k : Fin 16, k.val < s.sp.val → stack[k] = s.stack[k]) →
    exec i s = .next t →
    ∃ stack' : Vector Word 16, exec i { s with stack := stack } = .next { t with stack := stack' } ∧
      ∀ k : Fin 16, k.val < t.sp.val → stack'[k] = t.stack[k]

/-! ### The timer tick, quit, reset -/

/-- The timer tick takes both timers (decision D29) down by one to a floor of 0 and changes nothing else. -/
def Obligations.TickCountsDown : Prop :=
  ∀ (s : State) (ms : List Move), s.run = true → s.schedule = .tick :: ms →
    ∃ t, step s = .next t ∧ t.dt.toNat = s.dt.toNat - 1 ∧ t.st.toNat = s.st.toNat - 1 ∧ t.schedule = ms ∧
      Frame (fun p => p = .dt ∨ p = .st ∨ p = .schedule) s t

/-- The delay timer over any run (70_reset_and_hazards.md section 3): between two moments with no reset and no LD DT, Vx
executed, DT has gone down by the number of ticks, to a floor of 0, whatever the schedule. -/
def Obligations.DelayTimerCountsTicks : Prop :=
  ∀ (moves : Nat → Move) (f : Nat → State) (n k : Nat), IsRun moves f →
    (∀ j, j < k → (∀ rom, moves (n + j) ≠ .reset rom) ∧
      ∀ x, (moves (n + j)).isInstr = true → (f (n + j)).fetched ≠ some (.ldDtVx x)) →
    (f (n + k)).dt.toNat =
      (f n).dt.toNat - (List.range k).countP (fun j => decide (moves (n + j) = .tick))

/-- Under a weakly fair schedule (60_exceptions.md section 5) a machine that keeps running and executes no LD DT, Vx from
some moment on comes to have a delay timer of 0, so that a loop polling it can end. -/
def Obligations.FairRunsExhaustDelayTimer : Prop :=
  ∀ (moves : Nat → Move) (f : Nat → State) (n : Nat), IsRun moves f → WeaklyFair moves f → (∀ j, (f j).run = true) →
    (∀ j, n ≤ j → ∀ x, (moves j).isInstr = true → (f j).fetched ≠ some (.ldDtVx x)) →
    ∃ j, n ≤ j ∧ (f j).dt = 0#8

/-- The quit request clears RUN and nothing else, and ERR keeps its value (60_exceptions.md section 3; decision D26). -/
def Obligations.QuitClearsRun : Prop :=
  ∀ (s : State) (ms : List Move), s.schedule = .quit :: ms →
    ∃ t, step s = .next t ∧ t.run = false ∧ t.schedule = ms ∧ Frame (fun p => p = .run ∨ p = .schedule) s t

/-- In the halted state no agent steps and the state is frozen; only reset, which is always possible, changes anything
(60_exceptions.md section 6; decision D15). -/
def Obligations.HaltedStateIsFrozen : Prop :=
  ∀ s : State, s.run = false →
    ((s.nextMove.isInstr = true ∨ s.nextMove = .tick) → step s = .fault .halted) ∧
    (∀ t, step s = .next t → (∃ rom, s.nextMove = .reset rom) ∨ Frame (fun p => p = .schedule ∨ p = .draws) s t) ∧
    ∀ rom, s.nextMove = .reset rom → ∃ t, step s = .next t

/-- Reset with any ROM in any state (70_reset_and_hazards.md section 1): every register, the stack, the timers and the
screen at the values of the reset table; a ROM of at most 3584 bytes lies at `0x200` upward, every other byte is 0 and
the machine runs; a longer one leaves the machine halted with RomTooLarge and every byte 0 (values by decision D11,
refusal by decision D25). -/
def Obligations.ResetLoadsRom : Prop :=
  ∀ (s : State) (rom : List Byte) (ms : List Move), s.schedule = .reset rom :: ms →
    (rom.length ≤ 3584 →
      ∃ t, step s = .next t ∧ t.ResetValues ∧ t.run = true ∧ t.err = none ∧ t.schedule = ms ∧
        (∀ k, (h : k < rom.length) → t.mem.read (0x200 + k) = rom[k]) ∧
        ∀ a, a < 0x200 ∨ 0x200 + rom.length ≤ a → t.mem.read a = 0x00#8) ∧
    (3584 < rom.length →
      ∃ t, step s = .next t ∧ t.ResetValues ∧ t.run = false ∧
        t.err = some { kind := .romTooLarge, opcode := none, pc := 0x0200#16 } ∧ t.schedule = ms ∧
        ∀ a, t.mem.read a = 0x00#8)

/-- The reset state is the one the table of 10_state.md section 9 gives for an empty ROM (values by decision D11). -/
def Obligations.ResetStateIsTable : Prop :=
  State.reset.ResetValues ∧ State.reset.run = true ∧ State.reset.err = none ∧ (∀ a, State.reset.mem.read a = 0x00#8)

/-! ### Output ports -/

/-- R43: BEEP is 1 exactly when ST is not 0; so it follows LD ST, Vx at once, and the tick that takes ST to 0 turns it
off. -/
def Obligations.BeepFollowsSoundTimer : Prop :=
  (∀ s : State, s.beep = true ↔ s.st ≠ 0#8) ∧
  (∀ (x : Reg) (s : State), ∃ t, exec (.ldStVx x) s = .next t ∧ (t.beep = true ↔ s.v[x] ≠ 0#8)) ∧
  ∀ s : State, s.run = true → s.nextMove = .tick → ∃ t, step s = .next t ∧ (t.beep = true ↔ 2 ≤ s.st.toNat)

/-- PIXELS bit `64*y + x` is `FB[y][x]` (10_state.md section 8; decision D24). -/
def Obligations.PixelsPortLayout : Prop :=
  ∀ (s : State) (x : Fin 64) (y : Fin 32), s.pixels.getLsbD (64 * y.val + x.val) = s.fb.pixel x y

/-! ### The whole machine -/

/-- The reset state meets the invariant of reachable states. -/
def Obligations.InvariantHoldsAtReset : Prop := State.reset.Inv

/-- Every step, whatever its move and its inputs, keeps the invariant of reachable states: memory canonical, `I` and PC
and the stack entries in their ranges, and an error recorded only in the halted state, agreeing with the instruction PC
points at (10_state.md sections 3 to 5; 60_exceptions.md section 2). -/
def Obligations.StepKeepsInvariant : Prop := ∀ s t : State, s.Inv → step s = .next t → t.Inv

/-- Every step has a next state, but for an instruction step or a tick in the halted state; nothing is refused
(60_exceptions.md sections 1, 6). -/
def Obligations.OnlyHaltedMachineStops : Prop :=
  ∀ s : State, (∃ t, step s = .next t) ∨
    (step s = .fault .halted ∧ s.run = false ∧ (s.nextMove.isInstr = true ∨ s.nextMove = .tick))

/-- The first fault is the only one recorded: no step but reset changes an error once recorded (60_exceptions.md
section 2). -/
def Obligations.FirstErrorIsLatched : Prop :=
  ∀ (s t : State) (e : ErrRecord), s.Inv → s.err = some e → step s = .next t →
    t.err = some e ∨ ∃ rom, s.nextMove = .reset rom

/-- Only CLS, DRW and reset change a pixel (10_state.md section 6, 42_display.md section on visibility). -/
def Obligations.OnlyDisplayInstructionsDraw : Prop :=
  ∀ (s t : State) (x : Fin 64) (y : Fin 32), step s = .next t → t.fb.pixel x y ≠ s.fb.pixel x y →
    (∃ rom, s.nextMove = .reset rom) ∨
      (s.nextMove.isInstr = true ∧ (s.fetched = some .cls ∨ ∃ a b n, s.fetched = some (.drwVxVyN a b n)))

/-- Only BCD, the register block store and reset change a byte of memory, and the two instructions only bytes of their
own range (20_memory.md sections 3, 4). -/
def Obligations.OnlyStoresWriteMemory : Prop :=
  ∀ (s t : State) (a : Nat), step s = .next t → t.mem.read a ≠ s.mem.read a →
    (∃ rom, s.nextMove = .reset rom) ∨
      (s.nextMove.isInstr = true ∧ s.i.toNat ≤ a ∧ a ≤ 0xFFF ∧
        ((∃ x, s.fetched = some (.bcdVx x) ∧ a ≤ s.i.toNat + 2) ∨
          ∃ x : Reg, s.fetched = some (.stV0Vx x) ∧ a ≤ s.i.toNat + x.val))

/-- Only CALL, RET and reset change the stack or SP, and an entry is changed by CALL and reset alone (10_state.md
section 4). -/
def Obligations.OnlyCallAndReturnTouchStack : Prop :=
  ∀ s t : State, step s = .next t →
    (∃ rom, s.nextMove = .reset rom) ∨
      (s.nextMove.isInstr = true ∧ ∃ nnn, s.fetched = some (.call nnn)) ∨
      (t.stack = s.stack ∧ (t.sp = s.sp ∨ (s.nextMove.isInstr = true ∧ s.fetched = some .ret)))

/-- Every interleaving of instruction steps, ticks, quits and resets, with any inputs, is a run of `step`: running over a
schedule that lists the moves is applying the moves in order (60_exceptions.md section 5; decision D16). -/
def Obligations.EveryInterleavingIsARun : Prop :=
  ∀ (ms : List Move) (s : State),
    Host.Core.run Sys2Proof.core ms.length ({ s with schedule := ms ++ s.schedule } : State) = runMoves ms s
end

