-- ==== Sys2Proof/Laws/Decode.lean ====
section
/-! SUPPORT. The fields of the formats (30_encoding.md R72, R73): each field read back from a word built by a format, and
the word as a number. -/

namespace Sys2Proof

/-! ### Words as numbers -/

/-- A concatenation as a number. -/
theorem toNat_append_add {m n : Nat} (a : BitVec m) (b : BitVec n) :
    (a ++ b).toNat = a.toNat * 2 ^ n + b.toNat := by
  rw [BitVec.toNat_append, ← Nat.shiftLeft_add_eq_or_of_lt b.isLt, Nat.shiftLeft_eq]

@[simp] theorem toNat_nibble (k : Fin 16) : (nibble k).toNat = k.val := rfl

theorem toNat_formatNNN (fam : BitVec 4) (nnn : Addr12) :
    (formatNNN fam nnn).toNat = fam.toNat * 4096 + nnn.toNat := toNat_append_add fam nnn

theorem toNat_formatXNN (fam : BitVec 4) (x : Reg) (nn : Byte) :
    (formatXNN fam x nn).toNat = fam.toNat * 4096 + x.val * 256 + nn.toNat := by
  refine (toNat_append_add (fam ++ nibble x) nn).trans ?_
  rw [toNat_append_add, toNat_nibble]; omega

theorem toNat_formatXYN (fam : BitVec 4) (x y : Reg) (n : Fin 16) :
    (formatXYN fam x y n).toNat = fam.toNat * 4096 + x.val * 256 + y.val * 16 + n.val := by
  refine (toNat_append_add (fam ++ nibble x ++ nibble y) (nibble n)).trans ?_
  rw [toNat_append_add, toNat_append_add, toNat_nibble, toNat_nibble, toNat_nibble]; omega

theorem toNat_wordOfBytes (b0 b1 : Byte) : (wordOfBytes b0 b1).toNat = b0.toNat * 256 + b1.toNat :=
  toNat_append_add b0 b1

/-! ### Fields as numbers -/

theorem toNat_fieldFam (op : Word) : (fieldFam op).toNat = op.toNat / 4096 := by
  have := op.isLt
  simp [fieldFam, BitVec.extractLsb'_toNat, Nat.shiftRight_eq_div_pow]; omega

theorem val_fieldX (op : Word) : (fieldX op).val = op.toNat / 256 % 16 := by
  show (op.extractLsb' 8 4).toNat = _
  simp [BitVec.extractLsb'_toNat, Nat.shiftRight_eq_div_pow]

theorem val_fieldY (op : Word) : (fieldY op).val = op.toNat / 16 % 16 := by
  show (op.extractLsb' 4 4).toNat = _
  simp [BitVec.extractLsb'_toNat, Nat.shiftRight_eq_div_pow]

theorem val_fieldN (op : Word) : (fieldN op).val = op.toNat % 16 := by
  show (op.extractLsb' 0 4).toNat = _
  simp [BitVec.extractLsb'_toNat]

theorem toNat_fieldNN (op : Word) : (fieldNN op).toNat = op.toNat % 256 := by
  simp [fieldNN, BitVec.extractLsb'_toNat]

theorem toNat_fieldNNN (op : Word) : (fieldNNN op).toNat = op.toNat % 4096 := by
  simp [fieldNNN, BitVec.extractLsb'_toNat]

theorem toNat_highByte (op : Word) : (highByte op).toNat = op.toNat / 256 := by
  have := op.isLt
  simp [highByte, BitVec.extractLsb'_toNat, Nat.shiftRight_eq_div_pow]; omega

theorem toNat_lowByte (op : Word) : (lowByte op).toNat = op.toNat % 256 := by
  simp [lowByte, BitVec.extractLsb'_toNat]

/-- The two bytes of a word, high byte first, are the word. -/
@[simp] theorem wordOfBytes_high_low (op : Word) : wordOfBytes (highByte op) (lowByte op) = op := by
  apply BitVec.eq_of_toNat_eq
  rw [toNat_wordOfBytes, toNat_highByte, toNat_lowByte]; omega

/-! ### The fields of each format -/

@[simp] theorem fieldFam_formatNNN (fam : BitVec 4) (nnn : Addr12) : fieldFam (formatNNN fam nnn) = fam := by
  apply BitVec.eq_of_toNat_eq
  rw [toNat_fieldFam, toNat_formatNNN]; omega

@[simp] theorem fieldNNN_formatNNN (fam : BitVec 4) (nnn : Addr12) : fieldNNN (formatNNN fam nnn) = nnn := by
  apply BitVec.eq_of_toNat_eq
  rw [toNat_fieldNNN, toNat_formatNNN]; omega

@[simp] theorem fieldFam_formatXNN (fam : BitVec 4) (x : Reg) (nn : Byte) : fieldFam (formatXNN fam x nn) = fam := by
  apply BitVec.eq_of_toNat_eq
  rw [toNat_fieldFam, toNat_formatXNN]; omega

@[simp] theorem fieldX_formatXNN (fam : BitVec 4) (x : Reg) (nn : Byte) : fieldX (formatXNN fam x nn) = x := by
  apply Fin.ext
  rw [val_fieldX, toNat_formatXNN]; omega

@[simp] theorem fieldNN_formatXNN (fam : BitVec 4) (x : Reg) (nn : Byte) : fieldNN (formatXNN fam x nn) = nn := by
  apply BitVec.eq_of_toNat_eq
  rw [toNat_fieldNN, toNat_formatXNN]; omega

@[simp] theorem fieldFam_formatXYN (fam : BitVec 4) (x y : Reg) (n : Fin 16) : fieldFam (formatXYN fam x y n) = fam := by
  apply BitVec.eq_of_toNat_eq
  rw [toNat_fieldFam, toNat_formatXYN]; omega

@[simp] theorem fieldX_formatXYN (fam : BitVec 4) (x y : Reg) (n : Fin 16) : fieldX (formatXYN fam x y n) = x := by
  apply Fin.ext
  rw [val_fieldX, toNat_formatXYN]; omega

@[simp] theorem fieldY_formatXYN (fam : BitVec 4) (x y : Reg) (n : Fin 16) : fieldY (formatXYN fam x y n) = y := by
  apply Fin.ext
  rw [val_fieldY, toNat_formatXYN]; omega

@[simp] theorem fieldN_formatXYN (fam : BitVec 4) (x y : Reg) (n : Fin 16) : fieldN (formatXYN fam x y n) = n := by
  apply Fin.ext
  rw [val_fieldN, toNat_formatXYN]; omega

end Sys2Proof
end

