-- ==== Sys2Proof/Laws/State.lean ====
section
/-! SUPPORT. One lemma per field per update of the state, each true by rfl (or by the cases of the update's condition):
no proof unfolds a record update. -/

namespace Sys2Proof.Machine

variable (s : State)

/-! ### `State.setMem` -/

@[simp] theorem State.setMem_v (m : Memory) : (s.setMem m).v = s.v := rfl
@[simp] theorem State.setMem_i (m : Memory) : (s.setMem m).i = s.i := rfl
@[simp] theorem State.setMem_pc (m : Memory) : (s.setMem m).pc = s.pc := rfl
@[simp] theorem State.setMem_sp (m : Memory) : (s.setMem m).sp = s.sp := rfl
@[simp] theorem State.setMem_stack (m : Memory) : (s.setMem m).stack = s.stack := rfl
@[simp] theorem State.setMem_dt (m : Memory) : (s.setMem m).dt = s.dt := rfl
@[simp] theorem State.setMem_st (m : Memory) : (s.setMem m).st = s.st := rfl
@[simp] theorem State.setMem_run (m : Memory) : (s.setMem m).run = s.run := rfl
@[simp] theorem State.setMem_err (m : Memory) : (s.setMem m).err = s.err := rfl
@[simp] theorem State.setMem_mem (m : Memory) : (s.setMem m).mem = m := rfl
@[simp] theorem State.setMem_fb (m : Memory) : (s.setMem m).fb = s.fb := rfl
@[simp] theorem State.setMem_keys (m : Memory) : (s.setMem m).keys = s.keys := rfl
@[simp] theorem State.setMem_rnd (m : Memory) : (s.setMem m).rnd = s.rnd := rfl
@[simp] theorem State.setMem_cfg (m : Memory) : (s.setMem m).cfg = s.cfg := rfl
@[simp] theorem State.setMem_schedule (m : Memory) : (s.setMem m).schedule = s.schedule := rfl
@[simp] theorem State.setMem_draws (m : Memory) : (s.setMem m).draws = s.draws := rfl

/-! ### `State.setV` -/

@[simp] theorem State.setV_v (x : Reg) (b : Byte) : (s.setV x b).v = s.v.set x b := rfl
@[simp] theorem State.setV_i (x : Reg) (b : Byte) : (s.setV x b).i = s.i := rfl
@[simp] theorem State.setV_pc (x : Reg) (b : Byte) : (s.setV x b).pc = s.pc := rfl
@[simp] theorem State.setV_sp (x : Reg) (b : Byte) : (s.setV x b).sp = s.sp := rfl
@[simp] theorem State.setV_stack (x : Reg) (b : Byte) : (s.setV x b).stack = s.stack := rfl
@[simp] theorem State.setV_dt (x : Reg) (b : Byte) : (s.setV x b).dt = s.dt := rfl
@[simp] theorem State.setV_st (x : Reg) (b : Byte) : (s.setV x b).st = s.st := rfl
@[simp] theorem State.setV_run (x : Reg) (b : Byte) : (s.setV x b).run = s.run := rfl
@[simp] theorem State.setV_err (x : Reg) (b : Byte) : (s.setV x b).err = s.err := rfl
@[simp] theorem State.setV_mem (x : Reg) (b : Byte) : (s.setV x b).mem = s.mem := rfl
@[simp] theorem State.setV_fb (x : Reg) (b : Byte) : (s.setV x b).fb = s.fb := rfl
@[simp] theorem State.setV_keys (x : Reg) (b : Byte) : (s.setV x b).keys = s.keys := rfl
@[simp] theorem State.setV_rnd (x : Reg) (b : Byte) : (s.setV x b).rnd = s.rnd := rfl
@[simp] theorem State.setV_cfg (x : Reg) (b : Byte) : (s.setV x b).cfg = s.cfg := rfl
@[simp] theorem State.setV_schedule (x : Reg) (b : Byte) : (s.setV x b).schedule = s.schedule := rfl
@[simp] theorem State.setV_draws (x : Reg) (b : Byte) : (s.setV x b).draws = s.draws := rfl

/-! ### `State.setRegs` -/

@[simp] theorem State.setRegs_v (v : Vector Byte 16) : (s.setRegs v).v = v := rfl
@[simp] theorem State.setRegs_i (v : Vector Byte 16) : (s.setRegs v).i = s.i := rfl
@[simp] theorem State.setRegs_pc (v : Vector Byte 16) : (s.setRegs v).pc = s.pc := rfl
@[simp] theorem State.setRegs_sp (v : Vector Byte 16) : (s.setRegs v).sp = s.sp := rfl
@[simp] theorem State.setRegs_stack (v : Vector Byte 16) : (s.setRegs v).stack = s.stack := rfl
@[simp] theorem State.setRegs_dt (v : Vector Byte 16) : (s.setRegs v).dt = s.dt := rfl
@[simp] theorem State.setRegs_st (v : Vector Byte 16) : (s.setRegs v).st = s.st := rfl
@[simp] theorem State.setRegs_run (v : Vector Byte 16) : (s.setRegs v).run = s.run := rfl
@[simp] theorem State.setRegs_err (v : Vector Byte 16) : (s.setRegs v).err = s.err := rfl
@[simp] theorem State.setRegs_mem (v : Vector Byte 16) : (s.setRegs v).mem = s.mem := rfl
@[simp] theorem State.setRegs_fb (v : Vector Byte 16) : (s.setRegs v).fb = s.fb := rfl
@[simp] theorem State.setRegs_keys (v : Vector Byte 16) : (s.setRegs v).keys = s.keys := rfl
@[simp] theorem State.setRegs_rnd (v : Vector Byte 16) : (s.setRegs v).rnd = s.rnd := rfl
@[simp] theorem State.setRegs_cfg (v : Vector Byte 16) : (s.setRegs v).cfg = s.cfg := rfl
@[simp] theorem State.setRegs_schedule (v : Vector Byte 16) : (s.setRegs v).schedule = s.schedule := rfl
@[simp] theorem State.setRegs_draws (v : Vector Byte 16) : (s.setRegs v).draws = s.draws := rfl

/-! ### `State.setI` -/

@[simp] theorem State.setI_v (a : Word) : (s.setI a).v = s.v := rfl
@[simp] theorem State.setI_i (a : Word) : (s.setI a).i = a := rfl
@[simp] theorem State.setI_pc (a : Word) : (s.setI a).pc = s.pc := rfl
@[simp] theorem State.setI_sp (a : Word) : (s.setI a).sp = s.sp := rfl
@[simp] theorem State.setI_stack (a : Word) : (s.setI a).stack = s.stack := rfl
@[simp] theorem State.setI_dt (a : Word) : (s.setI a).dt = s.dt := rfl
@[simp] theorem State.setI_st (a : Word) : (s.setI a).st = s.st := rfl
@[simp] theorem State.setI_run (a : Word) : (s.setI a).run = s.run := rfl
@[simp] theorem State.setI_err (a : Word) : (s.setI a).err = s.err := rfl
@[simp] theorem State.setI_mem (a : Word) : (s.setI a).mem = s.mem := rfl
@[simp] theorem State.setI_fb (a : Word) : (s.setI a).fb = s.fb := rfl
@[simp] theorem State.setI_keys (a : Word) : (s.setI a).keys = s.keys := rfl
@[simp] theorem State.setI_rnd (a : Word) : (s.setI a).rnd = s.rnd := rfl
@[simp] theorem State.setI_cfg (a : Word) : (s.setI a).cfg = s.cfg := rfl
@[simp] theorem State.setI_schedule (a : Word) : (s.setI a).schedule = s.schedule := rfl
@[simp] theorem State.setI_draws (a : Word) : (s.setI a).draws = s.draws := rfl

/-! ### `State.setDt` -/

@[simp] theorem State.setDt_v (b : Byte) : (s.setDt b).v = s.v := rfl
@[simp] theorem State.setDt_i (b : Byte) : (s.setDt b).i = s.i := rfl
@[simp] theorem State.setDt_pc (b : Byte) : (s.setDt b).pc = s.pc := rfl
@[simp] theorem State.setDt_sp (b : Byte) : (s.setDt b).sp = s.sp := rfl
@[simp] theorem State.setDt_stack (b : Byte) : (s.setDt b).stack = s.stack := rfl
@[simp] theorem State.setDt_dt (b : Byte) : (s.setDt b).dt = b := rfl
@[simp] theorem State.setDt_st (b : Byte) : (s.setDt b).st = s.st := rfl
@[simp] theorem State.setDt_run (b : Byte) : (s.setDt b).run = s.run := rfl
@[simp] theorem State.setDt_err (b : Byte) : (s.setDt b).err = s.err := rfl
@[simp] theorem State.setDt_mem (b : Byte) : (s.setDt b).mem = s.mem := rfl
@[simp] theorem State.setDt_fb (b : Byte) : (s.setDt b).fb = s.fb := rfl
@[simp] theorem State.setDt_keys (b : Byte) : (s.setDt b).keys = s.keys := rfl
@[simp] theorem State.setDt_rnd (b : Byte) : (s.setDt b).rnd = s.rnd := rfl
@[simp] theorem State.setDt_cfg (b : Byte) : (s.setDt b).cfg = s.cfg := rfl
@[simp] theorem State.setDt_schedule (b : Byte) : (s.setDt b).schedule = s.schedule := rfl
@[simp] theorem State.setDt_draws (b : Byte) : (s.setDt b).draws = s.draws := rfl

/-! ### `State.setSt` -/

@[simp] theorem State.setSt_v (b : Byte) : (s.setSt b).v = s.v := rfl
@[simp] theorem State.setSt_i (b : Byte) : (s.setSt b).i = s.i := rfl
@[simp] theorem State.setSt_pc (b : Byte) : (s.setSt b).pc = s.pc := rfl
@[simp] theorem State.setSt_sp (b : Byte) : (s.setSt b).sp = s.sp := rfl
@[simp] theorem State.setSt_stack (b : Byte) : (s.setSt b).stack = s.stack := rfl
@[simp] theorem State.setSt_dt (b : Byte) : (s.setSt b).dt = s.dt := rfl
@[simp] theorem State.setSt_st (b : Byte) : (s.setSt b).st = b := rfl
@[simp] theorem State.setSt_run (b : Byte) : (s.setSt b).run = s.run := rfl
@[simp] theorem State.setSt_err (b : Byte) : (s.setSt b).err = s.err := rfl
@[simp] theorem State.setSt_mem (b : Byte) : (s.setSt b).mem = s.mem := rfl
@[simp] theorem State.setSt_fb (b : Byte) : (s.setSt b).fb = s.fb := rfl
@[simp] theorem State.setSt_keys (b : Byte) : (s.setSt b).keys = s.keys := rfl
@[simp] theorem State.setSt_rnd (b : Byte) : (s.setSt b).rnd = s.rnd := rfl
@[simp] theorem State.setSt_cfg (b : Byte) : (s.setSt b).cfg = s.cfg := rfl
@[simp] theorem State.setSt_schedule (b : Byte) : (s.setSt b).schedule = s.schedule := rfl
@[simp] theorem State.setSt_draws (b : Byte) : (s.setSt b).draws = s.draws := rfl

/-! ### `State.setPc` -/

@[simp] theorem State.setPc_v (a : Word) : (s.setPc a).v = s.v := rfl
@[simp] theorem State.setPc_i (a : Word) : (s.setPc a).i = s.i := rfl
@[simp] theorem State.setPc_pc (a : Word) : (s.setPc a).pc = a := rfl
@[simp] theorem State.setPc_sp (a : Word) : (s.setPc a).sp = s.sp := rfl
@[simp] theorem State.setPc_stack (a : Word) : (s.setPc a).stack = s.stack := rfl
@[simp] theorem State.setPc_dt (a : Word) : (s.setPc a).dt = s.dt := rfl
@[simp] theorem State.setPc_st (a : Word) : (s.setPc a).st = s.st := rfl
@[simp] theorem State.setPc_run (a : Word) : (s.setPc a).run = s.run := rfl
@[simp] theorem State.setPc_err (a : Word) : (s.setPc a).err = s.err := rfl
@[simp] theorem State.setPc_mem (a : Word) : (s.setPc a).mem = s.mem := rfl
@[simp] theorem State.setPc_fb (a : Word) : (s.setPc a).fb = s.fb := rfl
@[simp] theorem State.setPc_keys (a : Word) : (s.setPc a).keys = s.keys := rfl
@[simp] theorem State.setPc_rnd (a : Word) : (s.setPc a).rnd = s.rnd := rfl
@[simp] theorem State.setPc_cfg (a : Word) : (s.setPc a).cfg = s.cfg := rfl
@[simp] theorem State.setPc_schedule (a : Word) : (s.setPc a).schedule = s.schedule := rfl
@[simp] theorem State.setPc_draws (a : Word) : (s.setPc a).draws = s.draws := rfl

/-! ### `State.advance` -/

@[simp] theorem State.advance_v : s.advance.v = s.v := rfl
@[simp] theorem State.advance_i : s.advance.i = s.i := rfl
@[simp] theorem State.advance_pc : s.advance.pc = s.pc + 2#16 := rfl
@[simp] theorem State.advance_sp : s.advance.sp = s.sp := rfl
@[simp] theorem State.advance_stack : s.advance.stack = s.stack := rfl
@[simp] theorem State.advance_dt : s.advance.dt = s.dt := rfl
@[simp] theorem State.advance_st : s.advance.st = s.st := rfl
@[simp] theorem State.advance_run : s.advance.run = s.run := rfl
@[simp] theorem State.advance_err : s.advance.err = s.err := rfl
@[simp] theorem State.advance_mem : s.advance.mem = s.mem := rfl
@[simp] theorem State.advance_fb : s.advance.fb = s.fb := rfl
@[simp] theorem State.advance_keys : s.advance.keys = s.keys := rfl
@[simp] theorem State.advance_rnd : s.advance.rnd = s.rnd := rfl
@[simp] theorem State.advance_cfg : s.advance.cfg = s.cfg := rfl
@[simp] theorem State.advance_schedule : s.advance.schedule = s.schedule := rfl
@[simp] theorem State.advance_draws : s.advance.draws = s.draws := rfl

/-! ### `State.setFb` -/

@[simp] theorem State.setFb_v (fb : Framebuffer) : (s.setFb fb).v = s.v := rfl
@[simp] theorem State.setFb_i (fb : Framebuffer) : (s.setFb fb).i = s.i := rfl
@[simp] theorem State.setFb_pc (fb : Framebuffer) : (s.setFb fb).pc = s.pc := rfl
@[simp] theorem State.setFb_sp (fb : Framebuffer) : (s.setFb fb).sp = s.sp := rfl
@[simp] theorem State.setFb_stack (fb : Framebuffer) : (s.setFb fb).stack = s.stack := rfl
@[simp] theorem State.setFb_dt (fb : Framebuffer) : (s.setFb fb).dt = s.dt := rfl
@[simp] theorem State.setFb_st (fb : Framebuffer) : (s.setFb fb).st = s.st := rfl
@[simp] theorem State.setFb_run (fb : Framebuffer) : (s.setFb fb).run = s.run := rfl
@[simp] theorem State.setFb_err (fb : Framebuffer) : (s.setFb fb).err = s.err := rfl
@[simp] theorem State.setFb_mem (fb : Framebuffer) : (s.setFb fb).mem = s.mem := rfl
@[simp] theorem State.setFb_fb (fb : Framebuffer) : (s.setFb fb).fb = fb := rfl
@[simp] theorem State.setFb_keys (fb : Framebuffer) : (s.setFb fb).keys = s.keys := rfl
@[simp] theorem State.setFb_rnd (fb : Framebuffer) : (s.setFb fb).rnd = s.rnd := rfl
@[simp] theorem State.setFb_cfg (fb : Framebuffer) : (s.setFb fb).cfg = s.cfg := rfl
@[simp] theorem State.setFb_schedule (fb : Framebuffer) : (s.setFb fb).schedule = s.schedule := rfl
@[simp] theorem State.setFb_draws (fb : Framebuffer) : (s.setFb fb).draws = s.draws := rfl

/-! ### `State.raise` -/

@[simp] theorem State.raise_v (k : ErrKind) (op : Option Word) : (s.raise k op).v = s.v := rfl
@[simp] theorem State.raise_i (k : ErrKind) (op : Option Word) : (s.raise k op).i = s.i := rfl
@[simp] theorem State.raise_pc (k : ErrKind) (op : Option Word) : (s.raise k op).pc = s.pc := rfl
@[simp] theorem State.raise_sp (k : ErrKind) (op : Option Word) : (s.raise k op).sp = s.sp := rfl
@[simp] theorem State.raise_stack (k : ErrKind) (op : Option Word) : (s.raise k op).stack = s.stack := rfl
@[simp] theorem State.raise_dt (k : ErrKind) (op : Option Word) : (s.raise k op).dt = s.dt := rfl
@[simp] theorem State.raise_st (k : ErrKind) (op : Option Word) : (s.raise k op).st = s.st := rfl
@[simp] theorem State.raise_run (k : ErrKind) (op : Option Word) : (s.raise k op).run = false := rfl
@[simp] theorem State.raise_err (k : ErrKind) (op : Option Word) : (s.raise k op).err = some { kind := k, opcode := op, pc := s.pc } := rfl
@[simp] theorem State.raise_mem (k : ErrKind) (op : Option Word) : (s.raise k op).mem = s.mem := rfl
@[simp] theorem State.raise_fb (k : ErrKind) (op : Option Word) : (s.raise k op).fb = s.fb := rfl
@[simp] theorem State.raise_keys (k : ErrKind) (op : Option Word) : (s.raise k op).keys = s.keys := rfl
@[simp] theorem State.raise_rnd (k : ErrKind) (op : Option Word) : (s.raise k op).rnd = s.rnd := rfl
@[simp] theorem State.raise_cfg (k : ErrKind) (op : Option Word) : (s.raise k op).cfg = s.cfg := rfl
@[simp] theorem State.raise_schedule (k : ErrKind) (op : Option Word) : (s.raise k op).schedule = s.schedule := rfl
@[simp] theorem State.raise_draws (k : ErrKind) (op : Option Word) : (s.raise k op).draws = s.draws := rfl

/-! ### `State.setResultFlag` -/

@[simp] theorem State.setResultFlag_v (x : Reg) (b : Byte) (c : Bool) : (s.setResultFlag x b c).v = (s.v.set x b).set VF (flagByte c) := rfl
@[simp] theorem State.setResultFlag_i (x : Reg) (b : Byte) (c : Bool) : (s.setResultFlag x b c).i = s.i := rfl
@[simp] theorem State.setResultFlag_pc (x : Reg) (b : Byte) (c : Bool) : (s.setResultFlag x b c).pc = s.pc := rfl
@[simp] theorem State.setResultFlag_sp (x : Reg) (b : Byte) (c : Bool) : (s.setResultFlag x b c).sp = s.sp := rfl
@[simp] theorem State.setResultFlag_stack (x : Reg) (b : Byte) (c : Bool) : (s.setResultFlag x b c).stack = s.stack := rfl
@[simp] theorem State.setResultFlag_dt (x : Reg) (b : Byte) (c : Bool) : (s.setResultFlag x b c).dt = s.dt := rfl
@[simp] theorem State.setResultFlag_st (x : Reg) (b : Byte) (c : Bool) : (s.setResultFlag x b c).st = s.st := rfl
@[simp] theorem State.setResultFlag_run (x : Reg) (b : Byte) (c : Bool) : (s.setResultFlag x b c).run = s.run := rfl
@[simp] theorem State.setResultFlag_err (x : Reg) (b : Byte) (c : Bool) : (s.setResultFlag x b c).err = s.err := rfl
@[simp] theorem State.setResultFlag_mem (x : Reg) (b : Byte) (c : Bool) : (s.setResultFlag x b c).mem = s.mem := rfl
@[simp] theorem State.setResultFlag_fb (x : Reg) (b : Byte) (c : Bool) : (s.setResultFlag x b c).fb = s.fb := rfl
@[simp] theorem State.setResultFlag_keys (x : Reg) (b : Byte) (c : Bool) : (s.setResultFlag x b c).keys = s.keys := rfl
@[simp] theorem State.setResultFlag_rnd (x : Reg) (b : Byte) (c : Bool) : (s.setResultFlag x b c).rnd = s.rnd := rfl
@[simp] theorem State.setResultFlag_cfg (x : Reg) (b : Byte) (c : Bool) : (s.setResultFlag x b c).cfg = s.cfg := rfl
@[simp] theorem State.setResultFlag_schedule (x : Reg) (b : Byte) (c : Bool) : (s.setResultFlag x b c).schedule = s.schedule := rfl
@[simp] theorem State.setResultFlag_draws (x : Reg) (b : Byte) (c : Bool) : (s.setResultFlag x b c).draws = s.draws := rfl

/-! ### `State.setInputs` -/

@[simp] theorem State.setInputs_v (keys : BitVec 16) (rnd : Byte) : (s.setInputs keys rnd).v = s.v := rfl
@[simp] theorem State.setInputs_i (keys : BitVec 16) (rnd : Byte) : (s.setInputs keys rnd).i = s.i := rfl
@[simp] theorem State.setInputs_pc (keys : BitVec 16) (rnd : Byte) : (s.setInputs keys rnd).pc = s.pc := rfl
@[simp] theorem State.setInputs_sp (keys : BitVec 16) (rnd : Byte) : (s.setInputs keys rnd).sp = s.sp := rfl
@[simp] theorem State.setInputs_stack (keys : BitVec 16) (rnd : Byte) : (s.setInputs keys rnd).stack = s.stack := rfl
@[simp] theorem State.setInputs_dt (keys : BitVec 16) (rnd : Byte) : (s.setInputs keys rnd).dt = s.dt := rfl
@[simp] theorem State.setInputs_st (keys : BitVec 16) (rnd : Byte) : (s.setInputs keys rnd).st = s.st := rfl
@[simp] theorem State.setInputs_run (keys : BitVec 16) (rnd : Byte) : (s.setInputs keys rnd).run = s.run := rfl
@[simp] theorem State.setInputs_err (keys : BitVec 16) (rnd : Byte) : (s.setInputs keys rnd).err = s.err := rfl
@[simp] theorem State.setInputs_mem (keys : BitVec 16) (rnd : Byte) : (s.setInputs keys rnd).mem = s.mem := rfl
@[simp] theorem State.setInputs_fb (keys : BitVec 16) (rnd : Byte) : (s.setInputs keys rnd).fb = s.fb := rfl
@[simp] theorem State.setInputs_keys (keys : BitVec 16) (rnd : Byte) : (s.setInputs keys rnd).keys = keys := rfl
@[simp] theorem State.setInputs_rnd (keys : BitVec 16) (rnd : Byte) : (s.setInputs keys rnd).rnd = rnd := rfl
@[simp] theorem State.setInputs_cfg (keys : BitVec 16) (rnd : Byte) : (s.setInputs keys rnd).cfg = s.cfg := rfl
@[simp] theorem State.setInputs_schedule (keys : BitVec 16) (rnd : Byte) : (s.setInputs keys rnd).schedule = s.schedule := rfl
@[simp] theorem State.setInputs_draws (keys : BitVec 16) (rnd : Byte) : (s.setInputs keys rnd).draws = s.draws := rfl

/-! ### `State.timerTick` -/

@[simp] theorem State.timerTick_v : s.timerTick.v = s.v := rfl
@[simp] theorem State.timerTick_i : s.timerTick.i = s.i := rfl
@[simp] theorem State.timerTick_pc : s.timerTick.pc = s.pc := rfl
@[simp] theorem State.timerTick_sp : s.timerTick.sp = s.sp := rfl
@[simp] theorem State.timerTick_stack : s.timerTick.stack = s.stack := rfl
@[simp] theorem State.timerTick_dt : s.timerTick.dt = countDown s.dt := rfl
@[simp] theorem State.timerTick_st : s.timerTick.st = countDown s.st := rfl
@[simp] theorem State.timerTick_run : s.timerTick.run = s.run := rfl
@[simp] theorem State.timerTick_err : s.timerTick.err = s.err := rfl
@[simp] theorem State.timerTick_mem : s.timerTick.mem = s.mem := rfl
@[simp] theorem State.timerTick_fb : s.timerTick.fb = s.fb := rfl
@[simp] theorem State.timerTick_keys : s.timerTick.keys = s.keys := rfl
@[simp] theorem State.timerTick_rnd : s.timerTick.rnd = s.rnd := rfl
@[simp] theorem State.timerTick_cfg : s.timerTick.cfg = s.cfg := rfl
@[simp] theorem State.timerTick_schedule : s.timerTick.schedule = s.schedule := rfl
@[simp] theorem State.timerTick_draws : s.timerTick.draws = s.draws := rfl

/-! ### `State.quit` -/

@[simp] theorem State.quit_v : s.quit.v = s.v := rfl
@[simp] theorem State.quit_i : s.quit.i = s.i := rfl
@[simp] theorem State.quit_pc : s.quit.pc = s.pc := rfl
@[simp] theorem State.quit_sp : s.quit.sp = s.sp := rfl
@[simp] theorem State.quit_stack : s.quit.stack = s.stack := rfl
@[simp] theorem State.quit_dt : s.quit.dt = s.dt := rfl
@[simp] theorem State.quit_st : s.quit.st = s.st := rfl
@[simp] theorem State.quit_run : s.quit.run = false := rfl
@[simp] theorem State.quit_err : s.quit.err = s.err := rfl
@[simp] theorem State.quit_mem : s.quit.mem = s.mem := rfl
@[simp] theorem State.quit_fb : s.quit.fb = s.fb := rfl
@[simp] theorem State.quit_keys : s.quit.keys = s.keys := rfl
@[simp] theorem State.quit_rnd : s.quit.rnd = s.rnd := rfl
@[simp] theorem State.quit_cfg : s.quit.cfg = s.cfg := rfl
@[simp] theorem State.quit_schedule : s.quit.schedule = s.schedule := rfl
@[simp] theorem State.quit_draws : s.quit.draws = s.draws := rfl

/-! ### `State.skipIf` -/

@[simp] theorem State.skipIf_pc (c : Bool) : (s.skipIf c).pc = if c then s.pc + 4#16 else s.pc + 2#16 := by
  cases c <;> rfl
@[simp] theorem State.skipIf_v (c : Bool) : (s.skipIf c).v = s.v := by cases c <;> rfl
@[simp] theorem State.skipIf_i (c : Bool) : (s.skipIf c).i = s.i := by cases c <;> rfl
@[simp] theorem State.skipIf_sp (c : Bool) : (s.skipIf c).sp = s.sp := by cases c <;> rfl
@[simp] theorem State.skipIf_stack (c : Bool) : (s.skipIf c).stack = s.stack := by cases c <;> rfl
@[simp] theorem State.skipIf_dt (c : Bool) : (s.skipIf c).dt = s.dt := by cases c <;> rfl
@[simp] theorem State.skipIf_st (c : Bool) : (s.skipIf c).st = s.st := by cases c <;> rfl
@[simp] theorem State.skipIf_run (c : Bool) : (s.skipIf c).run = s.run := by cases c <;> rfl
@[simp] theorem State.skipIf_err (c : Bool) : (s.skipIf c).err = s.err := by cases c <;> rfl
@[simp] theorem State.skipIf_mem (c : Bool) : (s.skipIf c).mem = s.mem := by cases c <;> rfl
@[simp] theorem State.skipIf_fb (c : Bool) : (s.skipIf c).fb = s.fb := by cases c <;> rfl
@[simp] theorem State.skipIf_keys (c : Bool) : (s.skipIf c).keys = s.keys := by cases c <;> rfl
@[simp] theorem State.skipIf_rnd (c : Bool) : (s.skipIf c).rnd = s.rnd := by cases c <;> rfl
@[simp] theorem State.skipIf_cfg (c : Bool) : (s.skipIf c).cfg = s.cfg := by cases c <;> rfl
@[simp] theorem State.skipIf_schedule (c : Bool) : (s.skipIf c).schedule = s.schedule := by cases c <;> rfl
@[simp] theorem State.skipIf_draws (c : Bool) : (s.skipIf c).draws = s.draws := by cases c <;> rfl

/-! ### `State.popMove` -/

@[simp] theorem State.popMove_v : s.popMove.v = s.v := by unfold State.popMove; split <;> rfl
@[simp] theorem State.popMove_i : s.popMove.i = s.i := by unfold State.popMove; split <;> rfl
@[simp] theorem State.popMove_pc : s.popMove.pc = s.pc := by unfold State.popMove; split <;> rfl
@[simp] theorem State.popMove_sp : s.popMove.sp = s.sp := by unfold State.popMove; split <;> rfl
@[simp] theorem State.popMove_stack : s.popMove.stack = s.stack := by unfold State.popMove; split <;> rfl
@[simp] theorem State.popMove_dt : s.popMove.dt = s.dt := by unfold State.popMove; split <;> rfl
@[simp] theorem State.popMove_st : s.popMove.st = s.st := by unfold State.popMove; split <;> rfl
@[simp] theorem State.popMove_run : s.popMove.run = s.run := by unfold State.popMove; split <;> rfl
@[simp] theorem State.popMove_err : s.popMove.err = s.err := by unfold State.popMove; split <;> rfl
@[simp] theorem State.popMove_mem : s.popMove.mem = s.mem := by unfold State.popMove; split <;> rfl
@[simp] theorem State.popMove_fb : s.popMove.fb = s.fb := by unfold State.popMove; split <;> rfl
@[simp] theorem State.popMove_keys : s.popMove.keys = s.keys := by unfold State.popMove; split <;> rfl
@[simp] theorem State.popMove_rnd : s.popMove.rnd = s.rnd := by unfold State.popMove; split <;> rfl
@[simp] theorem State.popMove_cfg : s.popMove.cfg = s.cfg := by unfold State.popMove; split <;> rfl

theorem State.popMove_cons (m : Move) (ms : List Move) (h : s.schedule = m :: ms) :
    s.popMove = { s with schedule := ms } := by
  unfold State.popMove; rw [h]

theorem State.popMove_nil (h : s.schedule = []) : s.popMove = { s with draws := s.draws + 1 } := by
  unfold State.popMove; rw [h]

theorem State.nextMove_cons (m : Move) (ms : List Move) (h : s.schedule = m :: ms) : s.nextMove = m := by
  unfold State.nextMove; rw [h]

theorem State.nextMove_nil (h : s.schedule = []) :
    s.nextMove = .instr (Config.freeKeys s.draws) (Config.freeRnd s.draws) := by
  unfold State.nextMove; rw [h]

@[simp] theorem State.raiseIn_eq (k : ErrKind) (i : Instr) : s.raiseIn k i = s.raise k (some (encodeWord i)) := rfl

/-! ### `State.resetWith` -/

@[simp] theorem State.resetWith_cfg (rom : List Byte) : (s.resetWith rom).cfg = s.cfg := by
  unfold State.resetWith; dsimp only; split <;> rfl
@[simp] theorem State.resetWith_schedule (rom : List Byte) : (s.resetWith rom).schedule = s.schedule := by
  unfold State.resetWith; dsimp only; split <;> rfl
@[simp] theorem State.resetWith_draws (rom : List Byte) : (s.resetWith rom).draws = s.draws := by
  unfold State.resetWith; dsimp only; split <;> rfl

end Sys2Proof.Machine
end

