-- ==== Sys2Proof/Laws/Ops.lean ====
section
/-! SUPPORT. What the shared operations do: the loop, memory (read after write, and that every operation keeps the
canonical form), the stack, the framebuffer. -/

namespace Sys2Proof.Machine

/-! ### The loop -/

@[simp] theorem loop_zero {α : Type} (f : Nat → α → α) (a : α) : loop f 0 a = a := rfl

@[simp] theorem loop_succ {α : Type} (f : Nat → α → α) (k : Nat) (a : α) : loop f (k + 1) a = f k (loop f k a) := rfl

/-- What holds before the loop, and passes from each round to the next, holds after it. -/
theorem loop_induct {α : Type} {f : Nat → α → α} {P : Nat → α → Prop} {n : Nat} {a : α} (h0 : P 0 a)
    (hs : ∀ k b, k < n → P k b → P (k + 1) (f k b)) : P n (loop f n a) := by
  induction n with
  | zero => exact h0
  | succ n ih => exact hs n _ (Nat.lt_succ_self n) (ih fun k b hk => hs k b (Nat.lt_succ_of_lt hk))

/-! ### Memory: read after write -/

theorem Memory.read_cons (c : Host.Cell) (m : Memory) (a : Nat) :
    Memory.read (c :: m) a = if a = c.1 then c.2 else Memory.read m a := rfl

theorem Memory.read_erase_self (m : Memory) (a : Nat) : Memory.read (Memory.erase a m) a = Memory.unlisted := by
  induction m with
  | nil => rfl
  | cons c m ih =>
    unfold Memory.erase at *
    by_cases h : c.1 = a
    · simpa [List.filter_cons, h] using ih
    · simpa [List.filter_cons, h, Memory.read_cons, Ne.symm h] using ih

theorem Memory.read_erase_ne (m : Memory) {a b : Nat} (hb : b ≠ a) :
    Memory.read (Memory.erase a m) b = Memory.read m b := by
  induction m with
  | nil => rfl
  | cons c m ih =>
    unfold Memory.erase at *
    by_cases h : c.1 = a
    · simpa [List.filter_cons, h, Memory.read_cons, hb] using ih
    · simp only [List.filter_cons, bne_iff_ne, ne_eq, h, not_false_eq_true, if_true, Memory.read_cons, ih]

theorem Memory.read_insert_self (m : Memory) (a : Nat) (x : Byte)
    (h : Memory.read m a = Memory.unlisted) (hx : ∀ c ∈ m, c.1 ≠ a) :
    Memory.read (Memory.insert a x m) a = x := by
  induction m with
  | nil => simp [Memory.insert, Memory.read]
  | cons c m ih =>
    have hc : c.1 ≠ a := hx c (List.mem_cons_self ..)
    rw [Memory.read_cons, if_neg (Ne.symm hc)] at h
    unfold Memory.insert
    split
    · simp [Memory.read_cons]
    · rw [Memory.read_cons, if_neg (Ne.symm hc)]
      exact ih h fun d hd => hx d (List.mem_cons_of_mem _ hd)

theorem Memory.read_insert_ne (m : Memory) {a b : Nat} (x : Byte) (hb : b ≠ a) :
    Memory.read (Memory.insert a x m) b = Memory.read m b := by
  induction m with
  | nil => simp [Memory.insert, Memory.read, hb]
  | cons c m ih =>
    unfold Memory.insert
    split
    · simp [Memory.read_cons, hb]
    · simp only [Memory.read_cons, ih]

theorem Memory.ne_of_mem_erase {m : Memory} {a : Nat} {c : Host.Cell} (h : c ∈ Memory.erase a m) : c.1 ≠ a := by
  simpa using (List.mem_filter.mp h).2

/-- A read after a write to the same address gives the byte written (20_memory.md R58). -/
@[simp] theorem Memory.read_write_self (m : Memory) (a : Nat) (x : Byte) : Memory.read (Memory.write m a x) a = x := by
  unfold Memory.write
  split
  · rw [Memory.read_erase_self]; exact (‹x = Memory.unlisted›).symm
  · exact Memory.read_insert_self _ _ _ (Memory.read_erase_self m a) fun _ => Memory.ne_of_mem_erase

/-- A write leaves every other address alone. -/
theorem Memory.read_write_ne (m : Memory) {a b : Nat} (x : Byte) (hb : b ≠ a) :
    Memory.read (Memory.write m a x) b = Memory.read m b := by
  unfold Memory.write
  split
  · exact Memory.read_erase_ne m hb
  · rw [Memory.read_insert_ne _ _ hb, Memory.read_erase_ne m hb]

theorem Memory.read_write (m : Memory) (a b : Nat) (x : Byte) :
    Memory.read (Memory.write m a x) b = if b = a then x else Memory.read m b := by
  split
  · next h => rw [h, Memory.read_write_self]
  · next h => exact Memory.read_write_ne m x h

/-- What a block of writes leaves at each address. -/
theorem Memory.read_writeMany (m : Memory) (a : Nat) (f : Nat → Byte) (n b : Nat) :
    Memory.read (Memory.writeMany m a f n) b = if a ≤ b ∧ b < a + n then f (b - a) else Memory.read m b := by
  unfold Memory.writeMany
  induction n with
  | zero => rw [if_neg (by omega)]; rfl
  | succ n ih =>
    rw [loop_succ, Memory.read_write, ih]
    by_cases h : b = a + n
    · subst h; rw [if_pos rfl, if_pos (by omega)]; congr 1; omega
    · rw [if_neg h]; exact if_congr (by omega) rfl rfl

/-! ### Memory: the canonical form -/

/-- The canonical form, taken apart. -/
theorem Memory.wf_iff (m : Memory) :
    m.wf = true ↔ m.Pairwise (fun c d => c.1 < d.1) ∧ ∀ c ∈ m, c.1 ≤ 0xFFF ∧ c.2 ≠ Memory.unlisted := by
  simp [Memory.wf]

theorem Memory.wf_nil : Memory.wf [] = true := rfl

theorem Memory.reset_wf : State.reset.mem.wf = true := rfl

theorem Memory.mem_insert {m : Memory} {a : Nat} {x : Byte} {c : Host.Cell} :
    c ∈ Memory.insert a x m ↔ c = (a, x) ∨ c ∈ m := by
  induction m with
  | nil => simp [Memory.insert]
  | cons d m ih =>
    unfold Memory.insert
    split
    · simp
    · simp [ih]; tauto

theorem Memory.insert_pairwise {m : Memory} {a : Nat} (x : Byte) (h : m.Pairwise (fun c d => c.1 < d.1))
    (ha : ∀ c ∈ m, c.1 ≠ a) : (Memory.insert a x m).Pairwise (fun c d => c.1 < d.1) := by
  induction m with
  | nil => simp [Memory.insert]
  | cons c m ih =>
    rw [List.pairwise_cons] at h
    unfold Memory.insert
    split
    · next hlt =>
      refine List.pairwise_cons.mpr ⟨fun d hd => ?_, List.pairwise_cons.mpr h⟩
      rcases List.mem_cons.mp hd with rfl | hd
      · exact hlt
      · exact Nat.lt_trans hlt (h.1 d hd)
    · next hge =>
      have hc : c.1 < a := Nat.lt_of_le_of_ne (Nat.not_lt.mp hge) (ha c (List.mem_cons_self ..))
      refine List.pairwise_cons.mpr ⟨fun d hd => ?_, ih h.2 fun d hd => ha d (List.mem_cons_of_mem _ hd)⟩
      rcases Memory.mem_insert.mp hd with rfl | hd
      · exact hc
      · exact h.1 d hd

theorem Memory.erase_wf {m : Memory} (h : m.wf = true) (a : Nat) : (Memory.erase a m).wf = true := by
  rw [Memory.wf_iff] at *
  exact ⟨h.1.filter _, fun c hc => h.2 c (List.mem_of_mem_filter hc)⟩

/-- A write inside the address space keeps the canonical form. -/
theorem Memory.write_wf {m : Memory} (h : m.wf = true) {a : Nat} (ha : a ≤ 0xFFF) (x : Byte) :
    (Memory.write m a x).wf = true := by
  have he := Memory.erase_wf h a
  unfold Memory.write
  split
  · exact he
  · next hx =>
    rw [Memory.wf_iff] at *
    refine ⟨Memory.insert_pairwise x he.1 fun _ => Memory.ne_of_mem_erase, fun c hc => ?_⟩
    rcases Memory.mem_insert.mp hc with rfl | hc
    · exact ⟨ha, hx⟩
    · exact he.2 c hc

/-- A block of writes inside the address space keeps the canonical form. -/
theorem Memory.writeMany_wf {m : Memory} (h : m.wf = true) {a n : Nat} (ha : a + n ≤ 0x1000) (f : Nat → Byte) :
    (Memory.writeMany m a f n).wf = true :=
  loop_induct (P := fun _ m => Memory.wf m = true) h fun k _ hk hm => Memory.write_wf hm (by omega) _

/-- Loading a ROM that fits keeps the canonical form. -/
theorem Memory.loadRom_wf {m : Memory} (h : m.wf = true) {rom : List Byte} (hr : romFits rom = true) :
    (Memory.loadRom m rom).wf = true := by
  have hl : rom.length ≤ 0x1000 - 0x200 := of_decide_eq_true hr
  exact Memory.writeMany_wf h (by omega) _

/-- Equal memories are equal data: two canonical memories that read the same at every address are the same list. -/
theorem Memory.ext_of_read {m m' : Memory} (h : m.wf = true) (h' : m'.wf = true)
    (hr : ∀ a, Memory.read m a = Memory.read m' a) : m = m' := by
  rw [Memory.wf_iff] at h h'
  have unl : ∀ (l : Memory) (a : Nat), (∀ c ∈ l, a < c.1) → Memory.read l a = Memory.unlisted := by
    intro l
    induction l with
    | nil => intros; rfl
    | cons c l ih =>
      intro a hl
      have hc := hl c (List.mem_cons_self ..)
      rw [Memory.read_cons, if_neg (by omega)]
      exact ih a fun d hd => hl d (List.mem_cons_of_mem _ hd)
  induction m generalizing m' with
  | nil =>
    cases m' with
    | nil => rfl
    | cons d m' =>
      have hd := hr d.1
      rw [Memory.read_cons, if_pos rfl] at hd
      exact absurd hd.symm (h'.2 d (List.mem_cons_self ..)).2
  | cons c m ih =>
    rw [List.pairwise_cons] at h
    cases m' with
    | nil =>
      have hc := hr c.1
      rw [Memory.read_cons, if_pos rfl] at hc
      exact absurd hc (h.2 c (List.mem_cons_self ..)).2
    | cons d m' =>
      rw [List.pairwise_cons] at h'
      have hcd : c.1 = d.1 := by
        rcases Nat.lt_trichotomy c.1 d.1 with hlt | heq | hgt
        · have hc := hr c.1
          rw [Memory.read_cons, if_pos rfl, unl (d :: m') c.1 (by
            intro e he
            rcases List.mem_cons.mp he with rfl | he
            · exact hlt
            · exact Nat.lt_trans hlt (h'.1.1 e he))] at hc
          exact absurd hc (h.2 c (List.mem_cons_self ..)).2
        · exact heq
        · have hd := (hr d.1).symm
          rw [Memory.read_cons, if_pos rfl, unl (c :: m) d.1 (by
            intro e he
            rcases List.mem_cons.mp he with rfl | he
            · exact hgt
            · exact Nat.lt_trans hgt (h.1.1 e he))] at hd
          exact absurd hd (h'.2 d (List.mem_cons_self ..)).2
      have hv : c.2 = d.2 := by
        have hc := hr c.1
        rwa [Memory.read_cons, if_pos rfl, Memory.read_cons, if_pos hcd] at hc
      have hm : m = m' := by
        refine ih ⟨h.1.2, fun e he => h.2 e (List.mem_cons_of_mem _ he)⟩
          ⟨h'.1.2, fun e he => h'.2 e (List.mem_cons_of_mem _ he)⟩ fun a => ?_
        by_cases ha : a = c.1
        · rw [unl m a fun e he => ha ▸ h.1.1 e he, unl m' a fun e he => ha ▸ hcd ▸ h'.1.1 e he]
        · have := hr a
          rwa [Memory.read_cons, if_neg ha, Memory.read_cons, if_neg (hcd ▸ ha)] at this
      rw [hm, Prod.ext hcd hv]

/-! ### Stack (10_state.md R29) -/

/-- Push on a stack that is not full. -/
theorem State.push_some (s : State) (a : Word) (h : s.sp.val < 16) :
    s.push a = some { s with stack := s.stack.set s.sp.val a, sp := ⟨s.sp.val + 1, by omega⟩ } := by
  simp [State.push, h]

/-- Push on a full stack. -/
theorem State.push_none (s : State) (a : Word) (h : s.sp.val = 16) : s.push a = none := by
  simp [State.push, h]

/-- Pop of a stack that is not empty. -/
theorem State.pop_some (s : State) (k : Fin 16) (h : s.sp.val = k.val + 1) :
    s.pop = some (s.stack[k], { s with sp := ⟨k.val, by omega⟩ }) := by
  have h0 : 0 < s.sp.val := by omega
  have hk : s.sp.val - 1 = k.val := by omega
  unfold State.pop
  rw [dif_pos h0]
  simp only [hk]
  rfl

/-- Pop of an empty stack. -/
theorem State.pop_none (s : State) (h : s.sp.val = 0) : s.pop = none := by
  simp [State.pop, h]

/-! ### Framebuffer -/

/-- What an XOR of one pixel leaves at each pixel. -/
theorem Framebuffer.pixel_xorPixel (fb : Framebuffer) (x px : Fin 64) (y py : Fin 32) (b : Bool) :
    (fb.xorPixel x y b).pixel px py = (fb.pixel px py ^^ (b && decide (px = x ∧ py = y))) := by
  unfold Framebuffer.xorPixel Framebuffer.pixel
  by_cases hy : py = y
  · subst hy
    by_cases hx : px = x
    · subst hx; cases b <;> simp
    · have : ¬ px.val = x.val := fun e => hx (Fin.ext e)
      cases b <;> simp [hx, this]
  · have : ¬ y.val = py.val := fun e => hy (Fin.ext e.symm)
    simp [hy, this]

/-- A cleared framebuffer has every pixel off. -/
@[simp] theorem Framebuffer.pixel_blank (x : Fin 64) (y : Fin 32) : Framebuffer.blank.pixel x y = false := by
  simp [Framebuffer.blank, Framebuffer.pixel]

/-! ### The loaded registers (43_timer_memory.md R145) -/

/-- What loading `n` registers leaves in each register. -/
theorem State.loadedRegs_get (s : State) (base n : Nat) (hn : n ≤ 16) (r : Reg) :
    (s.loadedRegs base n)[r] = if r.val < n then Memory.read s.mem (base + r.val) else s.v[r] := by
  unfold State.loadedRegs
  induction n with
  | zero => simp
  | succ n ih =>
    have ih := ih (by omega)
    rw [loop_succ]
    by_cases h : r.val = n
    · subst h; simp
    · rw [Fin.getElem_fin] at *
      rw [Vector.getElem_setIfInBounds_ne _ (Ne.symm h), ih]
      exact if_congr (by omega) rfl rfl

end Sys2Proof.Machine
end

