-- ==== Sys2Proof/Laws/Frame.lean ====
section
/-! SUPPORT. Frames: how they compose, and the frame of every shared operation, so that an instruction's frame is put
together from those of the operations it is written with. -/

namespace Sys2Proof.Machine

/-! ### Composition -/

theorem Part.same_rfl (p : Part) (s : State) : p.same s s := by cases p <;> exact rfl

theorem Part.same_trans {p : Part} {s t u : State} (h : p.same s t) (h' : p.same t u) : p.same s u := by
  cases p <;> exact Eq.trans h' h

theorem Frame.refl (w : Part → Prop) (s : State) : Frame w s s := fun p _ => p.same_rfl s

/-- A frame holds for any larger set of written parts. -/
theorem Frame.mono {w w' : Part → Prop} {s t : State} (h : Frame w s t) (hw : ∀ p, w p → w' p) : Frame w' s t :=
  fun p hp => h p fun hq => hp (hw p hq)

/-- One update after another. -/
theorem Frame.trans {w : Part → Prop} {s t u : State} (h : Frame w s t) (h' : Frame w t u) : Frame w s u :=
  fun p hp => Part.same_trans (h p hp) (h' p hp)

/-! ### The frame of each operation -/

section

variable {w : Part → Prop} (s : State)

theorem frame_setV (x : Reg) (b : Byte) (h : w (.v x)) : Frame w s (s.setV x b) := by
  intro p hp
  cases p with
  | v r =>
    have hr : x.val ≠ r.val := fun e => hp ((Fin.ext e : x = r) ▸ h)
    simp [Part.same, hr]
  | _ => exact rfl

theorem frame_setPc (a : Word) (h : w .pc) : Frame w s (s.setPc a) := by
  intro p hp
  cases p with
  | pc => exact absurd h hp
  | _ => exact rfl

theorem frame_advance (h : w .pc) : Frame w s s.advance := frame_setPc s _ h

theorem frame_skipIf (c : Bool) (h : w .pc) : Frame w s (s.skipIf c) := by
  cases c
  · exact frame_advance s h
  · exact frame_setPc s _ h

theorem frame_setI (a : Word) (h : w .i) : Frame w s (s.setI a) := by
  intro p hp
  cases p with
  | i => exact absurd h hp
  | _ => exact rfl

theorem frame_setDt (b : Byte) (h : w .dt) : Frame w s (s.setDt b) := by
  intro p hp
  cases p with
  | dt => exact absurd h hp
  | _ => exact rfl

theorem frame_setSt (b : Byte) (h : w .st) : Frame w s (s.setSt b) := by
  intro p hp
  cases p with
  | st => exact absurd h hp
  | _ => exact rfl

theorem frame_setResultFlag (x : Reg) (b : Byte) (c : Bool) (h : w (.v x)) (hf : w (.v VF)) :
    Frame w s (s.setResultFlag x b c) := (frame_setV s x b h).trans (frame_setV _ VF _ hf)

theorem frame_setFb (fb : Framebuffer) (h : ∀ x y, w (.pixel x y)) : Frame w s (s.setFb fb) := by
  intro p hp
  cases p with
  | pixel x y => exact absurd (h x y) hp
  | _ => exact rfl

/-- A block of writes changes the bytes of the block alone. -/
theorem frame_writeMany (a : Nat) (f : Nat → Byte) (n : Nat) (h : ∀ k, k < n → w (.byte (a + k))) :
    Frame w s (s.setMem (s.mem.writeMany a f n)) := by
  intro p hp
  cases p with
  | byte b =>
    show Memory.read (s.mem.writeMany a f n) b = _
    rw [Memory.read_writeMany, if_neg]
    rintro ⟨h1, h2⟩
    refine hp ?_
    have := h (b - a) (by omega)
    rwa [Nat.add_sub_cancel' h1] at this
  | _ => exact rfl

/-- Loading registers changes the registers loaded alone. -/
theorem frame_loadedRegs (base n : Nat) (hn : n ≤ 16) (h : ∀ r : Reg, r.val < n → w (.v r)) :
    Frame w s (s.setRegs (s.loadedRegs base n)) := by
  intro p hp
  cases p with
  | v r =>
    show (s.loadedRegs base n)[r] = _
    rw [State.loadedRegs_get s base n hn, if_neg fun hr => hp (h r hr)]
  | _ => exact rfl

theorem frame_raise (k : ErrKind) (op : Option Word) (hr : w .run) (he : w .err) : Frame w s (s.raise k op) := by
  intro p hp
  cases p with
  | run => exact absurd hr hp
  | err => exact absurd he hp
  | _ => exact rfl

/-- Fault entry is what 60_exceptions.md R156 gives. -/
theorem faultsWith_raise (k : ErrKind) (op : Option Word) : FaultsWith k op s (s.raise k op) :=
  ⟨rfl, rfl, frame_raise s k op (.inl rfl) (.inr rfl)⟩

theorem frame_push {a : Word} {t : State} (hp : s.push a = some t) (hs : ∀ k : Fin 16, k.val = s.sp.val → w (.stack k))
    (h : w .sp) : Frame w s t := by
  unfold State.push at hp
  split at hp
  · next hlt =>
    cases hp
    intro p hp
    cases p with
    | stack k =>
      have hk : s.sp.val ≠ k.val := fun e => hp (hs k e.symm)
      simp [Part.same, hk]
    | sp => exact absurd h hp
    | _ => exact rfl
  · cases hp

theorem frame_pop {a : Word} {t : State} (hp : s.pop = some (a, t)) (h : w .sp) : Frame w s t := by
  unfold State.pop at hp
  split at hp
  · cases hp
    intro p hp
    cases p with
    | sp => exact absurd h hp
    | _ => exact rfl
  · cases hp

theorem frame_timerTick (h : w .dt) (h' : w .st) : Frame w s s.timerTick := by
  intro p hp
  cases p with
  | dt => exact absurd h hp
  | st => exact absurd h' hp
  | _ => exact rfl

theorem frame_quit (h : w .run) : Frame w s s.quit := by
  intro p hp
  cases p with
  | run => exact absurd h hp
  | _ => exact rfl

theorem frame_setInputs (keys : BitVec 16) (rnd : Byte) (h : w .keys) (h' : w .rnd) :
    Frame w s (s.setInputs keys rnd) := by
  intro p hp
  cases p with
  | keys => exact absurd h hp
  | rnd => exact absurd h' hp
  | _ => exact rfl

theorem frame_popMove (h : w .schedule) (h' : w .draws) : Frame w s s.popMove := by
  intro p hp
  cases p with
  | schedule => exact absurd h hp
  | draws => exact absurd h' hp
  | _ => simp [Part.same]

end

/-! ### Operand values -/

@[simp] theorem toNat_addrOf (nnn : Addr12) : (addrOf nnn).toNat = nnn.toNat := by
  simp only [addrOf, BitVec.toNat_setWidth]; omega

@[simp] theorem addrOk_iff (a : Nat) : addrOk a = true ↔ a ≤ 0xFFF := by simp [addrOk]

theorem addrOk_false_iff (a : Nat) : addrOk a = false ↔ 0xFFF < a := by simp [addrOk]

@[simp] theorem State.getV_eq (s : State) (x : Reg) : s.getV x = s.v[x] := rfl

theorem State.addr_eq (s : State) (k : Nat) : s.addr k = s.i.toNat + k := rfl

theorem State.regAt_eq (s : State) (r : Reg) : s.regAt r.val = s.v[r] := by
  simp [State.regAt]

/-- A timer one down, as a number with a floor of 0 (60_exceptions.md R165). -/
theorem toNat_countDown (t : Byte) : (countDown t).toNat = t.toNat - 1 := by
  unfold countDown
  split
  · rw [BitVec.toNat_sub]
    have := t.isLt
    simp; omega
  · omega

end Sys2Proof.Machine
end

