-- ==== Sys2Proof/Laws/PerInstr.lean ====
section
/-! SUPPORT. Per-instruction laws. Family `Encoding`: the word of an instruction is one of the supported words, by the list
of 30_encoding.md R77, which is written apart from the decoder and the encoder. -/

namespace Sys2Proof.Laws.Encoding

/-- The instruction's word is supported. -/
def Statement (i : Instr) : Prop := supported (encodeWord i) = true

/-- A word of a family in which every word is supported. -/
theorem supported_of_fam {op : Word} (h : op.toNat / 4096 ∈ [1, 2, 3, 4, 6, 7, 0xA, 0xC, 0xD]) : supported op = true := by
  unfold supported
  simp only [List.mem_cons, List.not_mem_nil, or_false] at h
  rcases h with h | h | h | h | h | h | h | h | h <;> rw [h] <;> rfl

theorem supported_nnn (fam : BitVec 4) (nnn : Addr12) (h : fam.toNat ∈ [1, 2, 3, 4, 6, 7, 0xA, 0xC, 0xD]) :
    supported (formatNNN fam nnn) = true :=
  supported_of_fam (by rw [← toNat_fieldFam, fieldFam_formatNNN]; exact h)

theorem supported_xnn (fam : BitVec 4) (x : Reg) (nn : Byte) (h : fam.toNat ∈ [1, 2, 3, 4, 6, 7, 0xA, 0xC, 0xD]) :
    supported (formatXNN fam x nn) = true :=
  supported_of_fam (by rw [← toNat_fieldFam, fieldFam_formatXNN]; exact h)

theorem supported_xyn8 (x y : Reg) (n : Fin 16) (h : n.val ∈ [0, 1, 2, 3, 4, 5, 6, 0xE]) :
    supported (formatXYN 0x8 x y n) = true := by
  have hf : (formatXYN 0x8 x y n).toNat / 4096 = 8 := by rw [← toNat_fieldFam, fieldFam_formatXYN]; rfl
  have hn : (formatXYN 0x8 x y n).toNat % 16 = n.val := by rw [← val_fieldN, fieldN_formatXYN]
  unfold supported
  simp only [hf, hn]
  simp only [List.mem_cons, List.not_mem_nil, or_false] at h
  rcases h with h | h | h | h | h | h | h | h <;> rw [h] <;> rfl

theorem supported_xsE (x : Reg) (nn : Byte) (h : nn.toNat ∈ [0x9E, 0xA1]) : supported (formatXNN 0xE x nn) = true := by
  have hf : (formatXNN 0xE x nn).toNat / 4096 = 0xE := by rw [← toNat_fieldFam, fieldFam_formatXNN]; rfl
  have hn : (formatXNN 0xE x nn).toNat % 256 = nn.toNat := by rw [← toNat_fieldNN, fieldNN_formatXNN]
  unfold supported
  simp only [hf, hn]
  simp only [List.mem_cons, List.not_mem_nil, or_false] at h
  rcases h with h | h <;> rw [h] <;> rfl

theorem supported_xsF (x : Reg) (nn : Byte) (h : nn.toNat ∈ [0x07, 0x15, 0x18, 0x33, 0x55, 0x65]) :
    supported (formatXNN 0xF x nn) = true := by
  have hf : (formatXNN 0xF x nn).toNat / 4096 = 0xF := by rw [← toNat_fieldFam, fieldFam_formatXNN]; rfl
  have hn : (formatXNN 0xF x nn).toNat % 256 = nn.toNat := by rw [← toNat_fieldNN, fieldNN_formatXNN]
  unfold supported
  simp only [hf, hn]
  simp only [List.mem_cons, List.not_mem_nil, or_false] at h
  rcases h with h | h | h | h | h | h <;> rw [h] <;> rfl

theorem cls : Statement .cls := by unfold Statement; decide
theorem ret : Statement .ret := by unfold Statement; decide
theorem jp (nnn : Addr12) : Statement (.jp nnn) := supported_nnn _ _ (by decide)
theorem call (nnn : Addr12) : Statement (.call nnn) := supported_nnn _ _ (by decide)
theorem seVxNn (x : Reg) (nn : Byte) : Statement (.seVxNn x nn) := supported_xnn _ _ _ (by decide)
theorem sneVxNn (x : Reg) (nn : Byte) : Statement (.sneVxNn x nn) := supported_xnn _ _ _ (by decide)
theorem ldVxNn (x : Reg) (nn : Byte) : Statement (.ldVxNn x nn) := supported_xnn _ _ _ (by decide)
theorem addVxNn (x : Reg) (nn : Byte) : Statement (.addVxNn x nn) := supported_xnn _ _ _ (by decide)
theorem ldVxVy (x y : Reg) : Statement (.ldVxVy x y) := supported_xyn8 _ _ _ (by decide)
theorem orVxVy (x y : Reg) : Statement (.orVxVy x y) := supported_xyn8 _ _ _ (by decide)
theorem andVxVy (x y : Reg) : Statement (.andVxVy x y) := supported_xyn8 _ _ _ (by decide)
theorem xorVxVy (x y : Reg) : Statement (.xorVxVy x y) := supported_xyn8 _ _ _ (by decide)
theorem addVxVy (x y : Reg) : Statement (.addVxVy x y) := supported_xyn8 _ _ _ (by decide)
theorem subVxVy (x y : Reg) : Statement (.subVxVy x y) := supported_xyn8 _ _ _ (by decide)
theorem shrVxVy (x y : Reg) : Statement (.shrVxVy x y) := supported_xyn8 _ _ _ (by decide)
theorem shlVxVy (x y : Reg) : Statement (.shlVxVy x y) := supported_xyn8 _ _ _ (by decide)
theorem ldINnn (nnn : Addr12) : Statement (.ldINnn nnn) := supported_nnn _ _ (by decide)
theorem rndVxNn (x : Reg) (nn : Byte) : Statement (.rndVxNn x nn) := supported_xnn _ _ _ (by decide)
theorem drwVxVyN (x y : Reg) (n : Fin 16) : Statement (.drwVxVyN x y n) :=
  supported_of_fam (by rw [← toNat_fieldFam, encodeWord, fieldFam_formatXYN]; decide)
theorem skpVx (x : Reg) : Statement (.skpVx x) := supported_xsE _ _ (by decide)
theorem sknpVx (x : Reg) : Statement (.sknpVx x) := supported_xsE _ _ (by decide)
theorem ldVxDt (x : Reg) : Statement (.ldVxDt x) := supported_xsF _ _ (by decide)
theorem ldDtVx (x : Reg) : Statement (.ldDtVx x) := supported_xsF _ _ (by decide)
theorem ldStVx (x : Reg) : Statement (.ldStVx x) := supported_xsF _ _ (by decide)
theorem bcdVx (x : Reg) : Statement (.bcdVx x) := supported_xsF _ _ (by decide)
theorem stV0Vx (x : Reg) : Statement (.stV0Vx x) := supported_xsF _ _ (by decide)
theorem ldV0Vx (x : Reg) : Statement (.ldV0Vx x) := supported_xsF _ _ (by decide)

end Sys2Proof.Laws.Encoding
end

