-- ==== Sys2Proof/Laws/Step.lean ====
section
/-! SUPPORT. What a step can do, said once: by the move that comes next, and within an instruction step by what the fetch
and the decoder give. -/

namespace Sys2Proof.Machine

/-! ### Taking a move off the schedule leaves the machine as it is -/

@[simp] theorem State.popMove_fetchOk (s : State) : s.popMove.fetchOk = s.fetchOk := by simp [State.fetchOk]

@[simp] theorem State.popMove_fetchWord (s : State) : s.popMove.fetchWord = s.fetchWord := by simp [State.fetchWord]

@[simp] theorem State.popMove_fetched (s : State) : s.popMove.fetched = s.fetched := by simp [State.fetched]

@[simp] theorem State.setInputs_fetchOk (s : State) (keys : BitVec 16) (rnd : Byte) :
    (s.setInputs keys rnd).fetchOk = s.fetchOk := rfl

@[simp] theorem State.setInputs_fetchWord (s : State) (keys : BitVec 16) (rnd : Byte) :
    (s.setInputs keys rnd).fetchWord = s.fetchWord := rfl

@[simp] theorem State.setInputs_fetched (s : State) (keys : BitVec 16) (rnd : Byte) :
    (s.setInputs keys rnd).fetched = s.fetched := rfl

theorem State.fetchOk_iff (s : State) : s.fetchOk = true ↔ s.pc.toNat + 1 ≤ 0xFFF := by simp [State.fetchOk]

/-! ### Inversion -/

/-- Everything a step with a next state can be. -/
theorem step_cases {s t : State} (h : step s = .next t) :
    (∃ keys rnd, s.nextMove = .instr keys rnd ∧ s.run = true ∧ instrStep (s.popMove.setInputs keys rnd) = .next t) ∨
    (s.nextMove = .tick ∧ s.run = true ∧ t = s.popMove.timerTick) ∨
    (s.nextMove = .quit ∧ t = s.popMove.quit) ∨
    ∃ rom, s.nextMove = .reset rom ∧ t = s.popMove.resetWith rom := by
  unfold step act at h
  split at h
  · next keys rnd hm =>
    split at h
    · next hr => exact .inl ⟨keys, rnd, hm, by simpa using hr, h⟩
    · cases h
  · next hm =>
    split at h
    · next hr => cases h; exact .inr (.inl ⟨hm, by simpa using hr, rfl⟩)
    · cases h
  · next hm => cases h; exact .inr (.inr (.inl ⟨hm, rfl⟩))
  · next rom hm => cases h; exact .inr (.inr (.inr ⟨rom, hm, rfl⟩))

/-- Everything an instruction step with a next state can be: an instruction executed, an unsupported word, a fetch outside
the address space. -/
theorem instrStep_cases {s t : State} (h : instrStep s = .next t) :
    (∃ i, s.fetched = some i ∧ s.fetchOk = true ∧ decodeWord s.fetchWord = .ok i ∧ exec i s = .next t) ∨
    (s.fetched = none ∧ s.fetchOk = true ∧ (∃ e, decodeWord s.fetchWord = .error e) ∧
      t = s.raise .unsupportedOpcode (some s.fetchWord)) ∨
    (s.fetched = none ∧ s.fetchOk = false ∧ t = s.raise .addressOutOfRange none) := by
  unfold instrStep at h
  unfold State.fetched
  cases hf : s.fetchOk with
  | true =>
    rw [hf, if_pos rfl] at h
    cases hd : decodeWord s.fetchWord with
    | ok i => rw [hd] at h; exact .inl ⟨i, rfl, rfl, rfl, h⟩
    | error e => rw [hd] at h; cases h; exact .inr (.inl ⟨rfl, rfl, ⟨e, rfl⟩, rfl⟩)
  | false => rw [hf] at h; cases h; exact .inr (.inr ⟨rfl, rfl, rfl⟩)

end Sys2Proof.Machine
end

