-- ==== Sys2Proof/Tests/Slice0.lean ====
section
/-! SUPPORT. Tests: words written out from the encodings of 30_encoding.md, the vectors of 95_test_vectors.md, one step
each, and for every statement with hypotheses a witness that meets them. Expected results are the spec's, none is the
model's own answer. -/

namespace Sys2Proof.Tests

open Sys2Proof Sys2Proof.Machine

/-! ### Helpers -/

/-- A state with a word at PC whose next move is an instruction step with the inputs given. -/
def ready (op : Word) (s : State) (keys : BitVec 16) (rnd : Byte) : State :=
  { s with
    mem := (Memory.write s.mem s.pc.toNat (highByte op)).write (s.pc.toNat + 1) (lowByte op)
    schedule := [.instr keys rnd] }

/-- The step of a state has a next state with the property. -/
def stepTo (s : State) (p : State → Bool) : Bool :=
  match step s with
  | .next t => p t
  | .fault _ => false
  | .refused _ => false

/-- One instruction step from a state, inputs 0, has a next state with the property. -/
def runs (op : Word) (s : State) (p : State → Bool) : Bool := stepTo (ready op s 0 0) p

/-- A state halted with an error of the instruction at PC. -/
def failed (t : State) (k : ErrKind) (op : Option Word) (pc : Word) : Bool :=
  !t.run && decide (t.err = some { kind := k, opcode := op, pc := pc }) && t.pc == pc

/-- The reset state, general registers set by number. -/
def regs (l : List (Reg × Byte)) : State := l.foldl (fun s c => s.setV c.1 c.2) State.reset

/-- The state with bytes at an address upward. -/
def bytes (s : State) (a : Nat) (l : List Byte) : State :=
  s.setMem (s.mem.writeMany a (fun k => l.getD k 0#8) l.length)

/-- The bytes of memory at an address upward are these. -/
def holds (t : State) (a : Nat) (l : List Byte) : Bool :=
  (List.range l.length).all fun k => Memory.read t.mem (a + k) == l.getD k 0#8

/-- The pixels that are on are these rows from the top, 0 elsewhere; bit x of a row is column x. -/
def shows (t : State) (rows : List (Nat × BitVec 64)) : Bool :=
  (List.range 32).all fun y => t.fb.getD y 0#64 == ((rows.lookup y).getD 0#64)

/-- The pixels (0,0)..(3,0) on. -/
def lit : State := State.reset.setFb (Framebuffer.blank.set 0 0xF#64)

/-! ### Well-formedness: an ill-formed word for each class (a) to (g) of 30_encoding.md R77, refused (95_test_vectors.md
2.2), and the ROM limit of 70_reset_and_hazards.md R181 -/

theorem test_unsupported_fam0 : supported 0x0000#16 = false ∧ supported 0x00E1#16 = false ∧
    supported 0x01E0#16 = false := by decide
theorem test_unsupported_fam5 : supported 0x5120#16 = false := by decide
theorem test_unsupported_fam8 : supported 0x8127#16 = false ∧ supported 0x8128#16 = false ∧
    supported 0x812D#16 = false ∧ supported 0x812F#16 = false := by decide
theorem test_unsupported_fam9 : supported 0x9120#16 = false := by decide
theorem test_unsupported_famB : supported 0xB200#16 = false := by decide
theorem test_unsupported_famE : supported 0xE19F#16 = false ∧ supported 0xE1A0#16 = false := by decide
theorem test_unsupported_famF : supported 0xF10A#16 = false ∧ supported 0xF11E#16 = false ∧
    supported 0xF175#16 = false ∧ supported 0xFFFF#16 = false := by decide
theorem test_supported : supported 0x00E0#16 = true ∧ supported 0x8ABE#16 = true ∧ supported 0xF355#16 = true := by
  decide
theorem test_rom_limit : romFits (List.replicate 3584 0x5A#8) = true ∧ romFits (List.replicate 3585 0#8) = false := by
  simp only [romFits, List.length_replicate]; decide

/-! ### Decoding: a word of every row, operands told apart (30_encoding.md R72, R76; 95_test_vectors.md 2.1 to 2.8) -/

theorem test_decode_control : decodeTableWord 16 0x00EE = some .ret ∧ decodeTableWord 16 0x1234 = some (.jp 0x234#12) ∧
    decodeTableWord 16 0x2ABC = some (.call 0xABC#12) ∧ decodeTableWord 16 0x3142 = some (.seVxNn 1 0x42#8) ∧
    decodeTableWord 16 0x4142 = some (.sneVxNn 1 0x42#8) ∧ decodeTableWord 16 0xE29E = some (.skpVx 2) ∧
    decodeTableWord 16 0xE2A1 = some (.sknpVx 2) := by decide

theorem test_decode_load : decodeTableWord 16 0x6A7F = some (.ldVxNn 0xA 0x7F#8) ∧
    decodeTableWord 16 0x7302 = some (.addVxNn 3 0x02#8) ∧ decodeTableWord 16 0xA20A = some (.ldINnn 0x20A#12) ∧
    decodeTableWord 16 0xC30F = some (.rndVxNn 3 0x0F#8) := by decide

theorem test_decode_alu : decodeTableWord 16 0x8AB0 = some (.ldVxVy 0xA 0xB) ∧
    decodeTableWord 16 0x8AB1 = some (.orVxVy 0xA 0xB) ∧ decodeTableWord 16 0x8AB2 = some (.andVxVy 0xA 0xB) ∧
    decodeTableWord 16 0x8AB3 = some (.xorVxVy 0xA 0xB) ∧ decodeTableWord 16 0x8AB4 = some (.addVxVy 0xA 0xB) ∧
    decodeTableWord 16 0x8AB5 = some (.subVxVy 0xA 0xB) ∧ decodeTableWord 16 0x8AB6 = some (.shrVxVy 0xA 0xB) ∧
    decodeTableWord 16 0x8ABE = some (.shlVxVy 0xA 0xB) := by decide

theorem test_decode_display : decodeTableWord 16 0x00E0 = some .cls ∧
    decodeTableWord 16 0xD125 = some (.drwVxVyN 1 2 5) := by decide

theorem test_decode_timer_memory : decodeTableWord 16 0xF307 = some (.ldVxDt 3) ∧
    decodeTableWord 16 0xF315 = some (.ldDtVx 3) ∧ decodeTableWord 16 0xF318 = some (.ldStVx 3) ∧
    decodeTableWord 16 0xF333 = some (.bcdVx 3) ∧ decodeTableWord 16 0xF355 = some (.stV0Vx 3) ∧
    decodeTableWord 16 0xFE65 = some (.ldV0Vx 0xE) := by decide

/-- High byte first: `12 34` is a jump to `0x234`, never `0x3412`; one byte alone is no instruction. -/
theorem test_decode_byte_order : decode [0x12#8, 0x34#8, 0x56#8] = .ok (.jp 0x234#12, [0x56#8]) ∧
    decode [0x12#8] = .error .tooShort := ⟨rfl, rfl⟩

theorem test_encode_bytes : encode (.subVxVy 0xA 0xB) = [0x8A#8, 0xB5#8] ∧ encode (.jp 0x234#12) = [0x12#8, 0x34#8] ∧
    encode (.skpVx 2) = [0xE2#8, 0x9E#8] ∧ encode .cls = [0x00#8, 0xE0#8] := by decide

/-! ### Fetch (95_test_vectors.md 2.1, 2.2) -/

theorem test_fetch_odd_pc : runs 0x6012#16 (State.reset.setPc 0x201#16)
    (fun t => t.v[0] == 0x12#8 && t.pc == 0x203#16) = true := by decide

theorem test_fetch_top : runs 0x6A01#16 (State.reset.setPc 0xFFE#16)
    (fun t => t.v[10] == 0x01#8 && t.pc == 0x1000#16 && t.run) = true := by decide

theorem test_fetch_out_of_range : stepTo { State.reset with pc := 0xFFF#16, schedule := [.instr 0 0] }
    (fun t => failed t .addressOutOfRange none 0xFFF#16) = true := by decide

theorem test_unsupported_word_halts : runs 0x5120#16 State.reset
    (fun t => failed t .unsupportedOpcode (some 0x5120#16) 0x200#16) = true := by decide

/-- The first step from reset with nothing placed (95_test_vectors.md 2.9, empty ROM). -/
theorem test_first_step_after_reset : stepTo State.reset
    (fun t => failed t .unsupportedOpcode (some 0x0000#16) 0x200#16) = true := by decide

/-! ### Control transfer (95_test_vectors.md 2.3) -/

theorem test_jp_odd : runs 0x1001#16 State.reset (fun t => t.pc == 0x0001#16) = true := by decide

theorem test_call : runs 0x2ABC#16 (State.reset.setPc 0xFFE#16)
    (fun t => t.stack[0] == 0x1000#16 && t.sp == 1 && t.pc == 0xABC#16) = true := by decide

theorem test_call_overflow : runs 0x2300#16 { State.reset with sp := 16 }
    (fun t => failed t .stackOverflow (some 0x2300#16) 0x200#16 && t.sp == 16) = true := by decide

theorem test_ret : runs 0x00EE#16
    { State.reset with sp := 1, pc := 0x300#16, stack := State.reset.stack.set 0 0x202#16 }
    (fun t => t.pc == 0x202#16 && t.sp == 0 && t.stack[0] == 0x202#16) = true := by decide

theorem test_ret_underflow : runs 0x00EE#16 State.reset
    (fun t => failed t .stackUnderflow (some 0x00EE#16) 0x200#16 && t.sp == 0) = true := by decide

theorem test_se : runs 0x3142#16 (regs [(1, 0x42#8)]) (fun t => t.pc == 0x204#16) = true ∧
    runs 0x3142#16 (regs [(1, 0x41#8)]) (fun t => t.pc == 0x202#16) = true := by decide

theorem test_sne : runs 0x4142#16 (regs [(1, 0x42#8)]) (fun t => t.pc == 0x202#16) = true ∧
    runs 0x4142#16 (regs [(1, 0x41#8)]) (fun t => t.pc == 0x204#16) = true := by decide

theorem test_skp : stepTo (ready 0xE29E#16 (regs [(2, 0x0F#8)]) 0x8000#16 0) (fun t => t.pc == 0x204#16) = true ∧
    stepTo (ready 0xE29E#16 (regs [(2, 5#8)]) 0xFFDF#16 0) (fun t => t.pc == 0x202#16) = true := by decide

/-- Key 21 does not exist, and is not key 5 (the spec's decision D9). -/
theorem test_skp_no_such_key :
    stepTo (ready 0xE29E#16 (regs [(2, 0x15#8)]) 0xFFFF#16 0) (fun t => t.pc == 0x202#16) = true := by decide

theorem test_sknp : stepTo (ready 0xE2A1#16 (regs [(2, 5#8)]) 0x0020#16 0) (fun t => t.pc == 0x202#16) = true ∧
    stepTo (ready 0xE2A1#16 (regs [(2, 0x10#8)]) 0xFFFF#16 0) (fun t => t.pc == 0x204#16) = true := by decide

/-! ### Load, ALU, index, random (95_test_vectors.md 2.4, 2.5) -/

theorem test_ld_imm : runs 0x6F01#16 State.reset (fun t => t.v[15] == 1#8 && t.pc == 0x202#16) = true := by
  decide

theorem test_add_imm_no_flag : runs 0x7302#16 (regs [(3, 0xFF#8)])
    (fun t => t.v[3] == 1#8 && t.v[15] == 0#8) = true := by decide

theorem test_ld_reg : runs 0x8AB0#16 (regs [(10, 0x11#8), (11, 0x33#8)])
    (fun t => t.v[10] == 0x33#8 && t.v[11] == 0x33#8) = true := by decide

theorem test_or_keeps_vf : runs 0x8AB1#16 (regs [(10, 0x5A#8), (11, 0x0F#8), (15, 1#8)])
    (fun t => t.v[10] == 0x5F#8 && t.v[15] == 1#8) = true := by decide

theorem test_and : runs 0x8AB2#16 (regs [(10, 0x5A#8), (11, 0x0F#8), (15, 1#8)])
    (fun t => t.v[10] == 0x0A#8 && t.v[15] == 1#8) = true := by decide

theorem test_xor : runs 0x8AB3#16 (regs [(10, 0x5A#8), (11, 0x0F#8), (15, 1#8)])
    (fun t => t.v[10] == 0x55#8 && t.v[15] == 1#8) = true := by decide

theorem test_add_carry : runs 0x8AB4#16 (regs [(10, 0xF0#8), (11, 0x20#8)])
    (fun t => t.v[10] == 0x10#8 && t.v[15] == 1#8) = true := by decide

/-- VF as a source: read before it is written. -/
theorem test_add_vf_source : runs 0x81F4#16 (regs [(1, 0xFF#8), (15, 1#8)])
    (fun t => t.v[1] == 0x00#8 && t.v[15] == 1#8) = true := by decide

theorem test_sub_borrow : runs 0x8AB5#16 (regs [(10, 0x10#8), (11, 0x20#8)])
    (fun t => t.v[10] == 0xF0#8 && t.v[15] == 0#8) = true := by decide

/-- VF as the destination: the flag remains, the difference 2 is lost. -/
theorem test_sub_into_vf : runs 0x8F15#16 (regs [(15, 5#8), (1, 3#8)]) (fun t => t.v[15] == 1#8) = true := by
  decide

theorem test_shr_vx : runs 0x8AB6#16 (regs [(10, 0x05#8), (11, 0xF0#8)])
    (fun t => t.v[10] == 0x02#8 && t.v[11] == 0xF0#8 && t.v[15] == 1#8) = true := by decide

theorem test_shr_vy : runs 0x8AB6#16 { regs [(10, 0x05#8), (11, 0xF0#8)] with cfg := ⟨.vy⟩ }
    (fun t => t.v[10] == 0x78#8 && t.v[11] == 0xF0#8 && t.v[15] == 0#8) = true := by decide

theorem test_shl_vx : runs 0x8ABE#16 (regs [(10, 0x81#8)])
    (fun t => t.v[10] == 0x02#8 && t.v[15] == 1#8) = true := by decide

theorem test_shl_vy : runs 0x8ABE#16 { regs [(11, 0xC1#8)] with cfg := ⟨.vy⟩ }
    (fun t => t.v[10] == 0x82#8 && t.v[11] == 0xC1#8 && t.v[15] == 1#8) = true := by decide

theorem test_ld_i : runs 0xA20A#16 State.reset (fun t => t.i == 0x20A#16 && t.pc == 0x202#16) = true := by
  decide

theorem test_rnd : stepTo (ready 0xC30F#16 State.reset 0 0xA7#8) (fun t => t.v[3] == 0x07#8) = true := by
  decide

/-! ### Display (95_test_vectors.md 2.6) -/

theorem test_cls : runs 0x00E0#16 (lit.setV 15 1#8) (fun t => shows t [] && t.v[15] == 1#8) = true := by
  decide

/-- Both coordinates wrap: rows C3, 81 at (62,31). -/
theorem test_drw_wraps : runs 0xD012#16 (bytes ((regs [(0, 62#8), (1, 31#8)]).setI 0x300#16) 0x300 [0xC3#8, 0x81#8])
    (fun t => shows t [(31, 0xC000000000000030#64), (0, 0x4000000000000020#64)] && t.v[15] == 0#8) = true := by
  decide

theorem test_drw_collides : runs 0xD011#16 (bytes (lit.setI 0x300#16) 0x300 [0x3C#8])
    (fun t => shows t [(0, 0x33#64)] && t.v[15] == 1#8) = true := by decide

theorem test_drw_no_rows : runs 0xD010#16 ((lit.setV 15 1#8).setI 0xFFF#16)
    (fun t => shows t [(0, 0xF#64)] && t.v[15] == 0#8 && t.pc == 0x202#16) = true := by decide

theorem test_drw_out_of_range : runs 0xD013#16 (bytes (lit.setI 0xFFE#16) 0xFFE [0x80#8])
    (fun t => failed t .addressOutOfRange (some 0xD013#16) 0x200#16 && shows t [(0, 0xF#64)]) = true := by
  decide

/-! ### Timers, BCD, register blocks (95_test_vectors.md 2.7, 2.8) -/

theorem test_ld_vx_dt : runs 0xF307#16 (State.reset.setDt 0x2A#8)
    (fun t => t.v[3] == 0x2A#8 && t.dt == 0x2A#8) = true := by decide

theorem test_ld_dt_vx : runs 0xF315#16 (regs [(3, 0x3C#8)]) (fun t => t.dt == 0x3C#8 && t.st == 0#8) = true := by
  decide

theorem test_ld_st_vx : runs 0xF318#16 (regs [(3, 5#8)]) (fun t => t.st == 5#8 && t.dt == 0#8 && t.beep) = true := by
  decide

theorem test_tick : stepTo { State.reset with dt := 2#8, st := 1#8, schedule := [.tick] }
    (fun t => t.dt == 1#8 && t.st == 0#8 && !t.beep && t.pc == 0x200#16) = true := by decide

theorem test_tick_floor : stepTo { State.reset with dt := 0#8, st := 0#8, schedule := [.tick] }
    (fun t => t.dt == 0#8 && t.st == 0#8) = true := by decide

/-- Register x, not V0 and not PC, which the source names as the bug of the observed code. -/
theorem test_bcd : runs 0xF333#16 ((regs [(3, 123#8)]).setI 0x300#16)
    (fun t => holds t 0x300 [1#8, 2#8, 3#8] && t.i == 0x300#16) = true := by decide

theorem test_bcd_out_of_range : runs 0xF033#16 (bytes ((regs [(0, 255#8)]).setI 0xFFE#16) 0xFFE [0xAA#8])
    (fun t => failed t .addressOutOfRange (some 0xF033#16) 0x200#16 && holds t 0xFFE [0xAA#8, 0#8]) = true := by
  decide

theorem test_store_regs : runs 0xF255#16
    (bytes ((regs [(0, 1#8), (1, 2#8), (2, 3#8), (3, 4#8)]).setI 0x400#16) 0x403 [9#8])
    (fun t => holds t 0x400 [1#8, 2#8, 3#8, 9#8] && t.i == 0x400#16) = true := by decide

theorem test_store_out_of_range : runs 0xF155#16 ((regs [(0, 7#8)]).setI 0xFFF#16)
    (fun t => failed t .addressOutOfRange (some 0xF155#16) 0x200#16 && holds t 0xFFF [0#8]) = true := by
  decide

theorem test_load_regs : runs 0xF265#16 (bytes ((regs [(3, 0x77#8)]).setI 0x300#16) 0x300 [2#8, 5#8, 4#8, 9#8])
    (fun t => t.v[0] == 2#8 && t.v[1] == 5#8 && t.v[2] == 4#8 && t.v[3] == 0x77#8 && t.i == 0x300#16) = true := by
  decide

theorem test_load_out_of_range : runs 0xFF65#16 ((regs [(0, 9#8)]).setI 0xFF1#16)
    (fun t => failed t .addressOutOfRange (some 0xFF65#16) 0x200#16 && t.v[0] == 9#8) = true := by decide

/-! ### Reset and quit (95_test_vectors.md 2.9) -/

theorem test_reset_loads_rom : stepTo { lit with run := false, sp := 3, schedule := [.reset [0x12#8]] }
    (fun t => t.run && holds t 0x1FF [0#8, 0x12#8, 0#8] && t.sp == 0 && shows t []) = true := by decide

theorem test_quit : stepTo { regs [(1, 7#8)] with schedule := [.quit] }
    (fun t => !t.run && t.err.isNone && t.v[1] == 7#8) = true := by decide

/-! ### The canonical form of memory -/

theorem test_memory_canonical :
    Memory.write (Memory.write (Memory.write [] 0x301 7#8) 0x300 5#8) 0x301 0#8 = [(0x300, 5#8)] := by decide

/-! ### Witnesses: for each statement with hypotheses, values that meet them, each clause at the ends of its range -/

/-- A machine at rest on the jump `1200` at 0x200, with a move to come. -/
def loopAt (ms : List Move) : State := { ready 0x1200#16 State.reset 0 0 with schedule := ms }

/-- A machine halted by an unsupported word, quit next. -/
def haltedState : State :=
  { State.reset with
    run := false
    err := some { kind := .unsupportedOpcode, opcode := some 0x0000#16, pc := 0x0200#16 }
    schedule := [.quit] }

theorem witness_EncodeOfDecodedWord : decodeWord 0x8AB4#16 = .ok (.addVxVy 0xA 0xB) := rfl

/-- A word a row selects, and a word no row selects. -/
theorem witness_DecoderFollowsOpcodeMap :
    (∃ r ∈ opcodeMap, (0x8AB4#16 &&& r.mask) = r.pattern) ∧ ∀ r ∈ opcodeMap, (0x5120#16 &&& r.mask) ≠ r.pattern := by
  decide

/-- The last word of memory is an unsupported one. -/
theorem witness_UnsupportedWordRaises : ∃ s : State, s.run = true ∧ s.nextMove = .instr 0 0 ∧
    s.pc.toNat + 1 ≤ 0xFFF ∧ supported (wordOfBytes (s.mem.read s.pc.toNat) (s.mem.read (s.pc.toNat + 1))) = false :=
  ⟨ready 0x5120#16 (State.reset.setPc 0xFFE#16) 0 0, by decide⟩

/-- The four clauses: a fetch at 0xFFF, an instruction and an unsupported word at 0xFFE, the halted state. -/
theorem witness_StepRunsDecodedInstruction :
    (∃ s : State, s.nextMove = .instr 0 0 ∧ s.run = true ∧ s.pc.toNat + 1 > 0xFFF) ∧
    (∃ s : State, s.nextMove = .instr 0 0 ∧ s.run = true ∧ s.pc.toNat + 1 ≤ 0xFFF ∧
      decode [s.mem.read s.pc.toNat, s.mem.read (s.pc.toNat + 1)] = .ok (.ldVxNn 0xA 1#8, [])) ∧
    (∃ s : State, s.nextMove = .instr 0 0 ∧ s.run = true ∧ s.pc.toNat + 1 ≤ 0xFFF ∧
      decode [s.mem.read s.pc.toNat, s.mem.read (s.pc.toNat + 1)] = .error (.unsupported 0#16)) ∧
    ∃ s : State, s.nextMove = .instr 0 0 ∧ s.run = false :=
  ⟨⟨{ loopAt [.instr 0 0] with pc := 0xFFF#16 }, by decide⟩,
    ⟨ready 0x6A01#16 (State.reset.setPc 0xFFE#16) 0 0, by decide, by decide +kernel, by decide +kernel, rfl⟩,
    ⟨{ loopAt [.instr 0 0] with pc := 0xFFE#16 }, by decide, by decide +kernel, by decide +kernel, rfl⟩,
    ⟨{ loopAt [.instr 0 0] with run := false }, by decide⟩⟩

/-- A fetch at 0xFFF, and an unsupported word. -/
theorem witness_FetchFaultsArePrecise :
    (∃ s : State, s.run = true ∧ s.nextMove = .instr 0 0 ∧ s.fetched = none ∧ s.pc = 0xFFF#16) ∧
    ∃ s : State, s.run = true ∧ s.nextMove = .instr 0 0 ∧ s.fetched = none ∧ s.pc = 0xFFE#16 :=
  ⟨⟨{ loopAt [.instr 0 0] with pc := 0xFFF#16 }, by decide⟩,
    ⟨{ loopAt [.instr 0 0] with pc := 0xFFE#16 }, by decide⟩⟩

theorem witness_PlacedWordRunsNext : decodeTableWord 16 0xD125 = some (.drwVxVyN 1 2 5) := by decide

/-- A stack of 0, of 15 and of 16 addresses. -/
theorem witness_CallPushesReturnAddress : ∃ s t u : State,
    s.sp.val = (0 : Fin 16).val ∧ t.sp.val = (15 : Fin 16).val ∧ u.sp.val = 16 :=
  ⟨State.reset, { State.reset with sp := 15 }, { State.reset with sp := 16 }, by decide⟩

/-- A stack of 1, of 16 and of 0 addresses. -/
theorem witness_ReturnPopsPc : ∃ s t u : State,
    s.sp.val = (0 : Fin 16).val + 1 ∧ t.sp.val = (15 : Fin 16).val + 1 ∧ u.sp.val = 0 :=
  ⟨{ State.reset with sp := 1 }, { State.reset with sp := 16 }, State.reset, by decide⟩

/-- A call on a stack of 15; and a call on an empty stack, after which a nested call has come back and left a stale
entry above SP. -/
theorem witness_ReturnUndoesCall :
    (∃ s t u : State, s.sp.val < 16 ∧ exec (.call 0x300#12) s = .next t ∧ u.sp = t.sp ∧
      (∀ k : Fin 16, k.val < u.sp.val → u.stack[k] = t.stack[k]) ∧ s.sp.val = 15) ∧
    ∃ s t u : State, s.sp.val < 16 ∧ exec (.call 0x300#12) s = .next t ∧ u.sp = t.sp ∧
      (∀ k : Fin 16, k.val < u.sp.val → u.stack[k] = t.stack[k]) ∧ u.stack ≠ t.stack :=
  ⟨⟨{ State.reset with sp := 15 }, _, _, by decide, rfl, rfl, fun _ _ => rfl, by decide⟩,
    ⟨State.reset, { State.reset with sp := 1, pc := 0x300#16, stack := State.reset.stack.set 0 0x202#16 },
      { State.reset with sp := 1, stack := (State.reset.stack.set 0 0x202#16).set 1 0x302#16 },
      by decide, rfl, rfl, by decide, by decide⟩⟩

theorem witness_AddSetsCarry : (10 : Reg) ≠ VF := by decide

/-- ShiftRight and ShiftLeft, with both settings of SHIFT_SOURCE; a destination that is not VF, for the clause of these two
and of SubSetsNoBorrow. -/
theorem witness_Shifts : (∃ s : State, 0x05#8 = (if s.cfg.shiftSource = .vx then s.v[(10 : Reg)] else s.v[(11 : Reg)])) ∧
    (∃ s : State, s.cfg.shiftSource = .vy ∧
      0xF0#8 = (if s.cfg.shiftSource = .vx then s.v[(10 : Reg)] else s.v[(11 : Reg)])) ∧ (10 : Reg) ≠ VF :=
  ⟨⟨regs [(10, 0x05#8), (11, 0xF0#8)], by decide⟩,
    ⟨{ regs [(10, 0x05#8), (11, 0xF0#8)] with cfg := ⟨.vy⟩ }, by decide⟩, by decide⟩

/-- No row at `I = 0xFFF` + 1; the last row at 0xFFF; with coordinates that are not VF. -/
theorem witness_DrawXorsSprite : ∃ s t : State, (1 : Reg) ≠ VF ∧ (2 : Reg) ≠ VF ∧
    ((0 : Fin 16).val = 0 ∨ s.i.toNat + (0 : Fin 16).val - 1 ≤ 0xFFF) ∧
    ((15 : Fin 16).val = 0 ∨ t.i.toNat + (15 : Fin 16).val - 1 ≤ 0xFFF) ∧ t.i.toNat + 15 - 1 = 0xFFF :=
  ⟨State.reset.setI 0x1000#16, State.reset.setI 0xFF1#16, by decide⟩

theorem witness_DrawTwiceRestores : ∃ s : State, (1 : Reg) ≠ VF ∧ (2 : Reg) ≠ VF ∧
    ((15 : Fin 16).val = 0 ∨ s.i.toNat + (15 : Fin 16).val - 1 ≤ 0xFFF) := ⟨State.reset.setI 0xFF1#16, by decide⟩

theorem witness_DrawOutOfRange : ∃ s : State, (15 : Fin 16).val > 0 ∧ s.i.toNat + (15 : Fin 16).val - 1 > 0xFFF ∧
    s.i.toNat + (15 : Fin 16).val - 1 = 0x1000 := ⟨State.reset.setI 0xFF2#16, by decide⟩

theorem witness_BcdStoresDigits : ∃ s t : State, s.i.toNat + 2 ≤ 0xFFF ∧ s.i.toNat + 2 = 0xFFF ∧ t.i.toNat + 2 > 0xFFF :=
  ⟨State.reset.setI 0xFFD#16, State.reset.setI 0xFFE#16, by decide⟩

/-- The two clauses of StoreRegisters and of LoadRegisters, at the last block that fits and the first that does not. -/
theorem witness_RegisterBlocks : ∃ s t : State,
    s.i.toNat + (15 : Reg).val ≤ 0xFFF ∧ s.i.toNat + (15 : Reg).val = 0xFFF ∧ t.i.toNat + (15 : Reg).val > 0xFFF :=
  ⟨State.reset.setI 0xFF0#16, State.reset.setI 0xFF1#16, by decide⟩

theorem witness_LoadAfterStoreRestores : ∃ s t u : State, s.i.toNat + (15 : Reg).val ≤ 0xFFF ∧
    exec (.stV0Vx 15) s = .next t ∧ u.mem = t.mem ∧ u.i = s.i :=
  ⟨State.reset.setI 0xFF0#16, _, _, by decide, rfl, rfl, rfl⟩

/-- A store of V0, V1 at 0x202 by the instruction at 0x200. -/
theorem witness_StoreSeenByNextFetch : ∃ s : State, s.i.toNat + (1 : Reg).val ≤ 0xFFF ∧
    (0 : Fin 15).val + 1 ≤ (1 : Reg).val ∧ (s.pc + 2#16).toNat = s.i.toNat + (0 : Fin 15).val :=
  ⟨State.reset.setI 0x202#16, by decide⟩

theorem witness_InstructionsWriteOnlyTheirParts : faultOf (.stV0Vx 15) (State.reset.setI 0xFF0#16) = none := by decide

theorem witness_InstructionFaultsArePrecise : faultOf (.stV0Vx 15) (State.reset.setI 0xFF1#16) = some .addressOutOfRange ∧
    faultOf .ret State.reset = some .stackUnderflow ∧
    faultOf (.call 0x200#12) { State.reset with sp := 16 } = some .stackOverflow := by decide

theorem witness_FlagsAreZeroOrOne : producesFlag (.drwVxVyN 0 1 15) ∧
    faultOf (.drwVxVyN 0 1 15) (State.reset.setI 0xFF1#16) = none :=
  ⟨.inr (.inr (.inr (.inr ⟨_, _, _, rfl⟩))), by decide⟩

/-- A fault-free instruction, with a return among them; a step that halts; a tick. -/
theorem witness_PcPolicy : (∃ s : State, faultOf .ret s = none ∧ s.sp.val = (0 : Fin 16).val + 1) ∧
    (∃ s t : State, s.run = true ∧ (∀ rom, s.nextMove ≠ .reset rom) ∧ step s = .next t ∧ t.run = false) ∧
    ∃ s t : State, s.nextMove = .tick ∧ step s = .next t :=
  ⟨⟨{ State.reset with sp := 1 }, by decide⟩,
    ⟨loopAt [.quit], _, rfl, (fun _ h => by cases h), rfl, rfl⟩, ⟨loopAt [.tick], _, rfl, rfl⟩⟩

theorem witness_InputsReachOnlyTheirReaders :
    (∃ t, (∀ x, Instr.cls ≠ .skpVx x) ∧ (∀ x, Instr.cls ≠ .sknpVx x) ∧ exec .cls lit = .next t) ∧
    (∃ t, (∀ x nn, Instr.cls ≠ .rndVxNn x nn) ∧ exec .cls lit = .next t) ∧
    ∃ t, (∀ x y, Instr.cls ≠ .shrVxVy x y) ∧ (∀ x y, Instr.cls ≠ .shlVxVy x y) ∧ exec .cls lit = .next t :=
  ⟨⟨_, by simp, by simp, rfl⟩, ⟨_, by simp, rfl⟩, ⟨_, by simp, by simp, rfl⟩⟩

/-- One address on the stack, the entries above it different. -/
theorem witness_StaleStackUnobservable : ∃ s t : State, ∃ stack : Vector Word 16,
    (∀ k : Fin 16, k.val < s.sp.val → stack[k] = s.stack[k]) ∧ stack ≠ s.stack ∧ exec .ret s = .next t :=
  ⟨{ State.reset with sp := 1 }, _, State.reset.stack.set 1 0xBEEF#16, by decide, by decide, rfl⟩

theorem witness_TickCountsDown : ∃ s : State, s.run = true ∧ s.schedule = .tick :: [] := ⟨loopAt [.tick], rfl, rfl⟩

/-! A fair run: the jump to itself, instruction steps and ticks in turn, DT 1 before the first tick. -/

/-- The moves of the fair run. -/
def fairMoves (n : Nat) : Move := if n % 2 = 0 then .instr 0 0 else .tick

/-- The states of the fair run. -/
def fairRun (n : Nat) : State := if n ≤ 1 then (loopAt []).setDt 1#8 else loopAt []

theorem fairRun_fetched (n : Nat) : (fairRun n).fetched = some (.jp 0x200#12) := by
  unfold fairRun; split <;> rfl

theorem fairRun_isRun : IsRun fairMoves fairRun := by
  intro n
  unfold fairRun fairMoves
  rcases n with _ | _ | n
  · rfl
  · rfl
  · rw [if_neg (show ¬ n + 1 + 1 ≤ 1 by omega), if_neg (show ¬ n + 1 + 1 + 1 ≤ 1 by omega)]
    split <;> rfl

theorem witness_DelayTimerCountsTicks : IsRun fairMoves fairRun ∧
    ∀ j, j < 2 → (∀ rom, fairMoves (0 + j) ≠ .reset rom) ∧
      ∀ x, (fairMoves (0 + j)).isInstr = true → (fairRun (0 + j)).fetched ≠ some (.ldDtVx x) := by
  refine ⟨fairRun_isRun, fun j _ => ⟨fun rom => ?_, fun x _ => ?_⟩⟩
  · unfold fairMoves; split <;> simp
  · rw [fairRun_fetched]; simp

theorem witness_FairRunsExhaustDelayTimer : IsRun fairMoves fairRun ∧ WeaklyFair fairMoves fairRun ∧
    (∀ j, (fairRun j).run = true) ∧
    (∀ j, 0 ≤ j → ∀ x, (fairMoves j).isInstr = true → (fairRun j).fetched ≠ some (.ldDtVx x)) ∧
    (fairRun 0).dt = 1#8 := by
  refine ⟨fairRun_isRun, fun _ => ⟨fun n => ⟨2 * n, by omega, ?_⟩, fun n => ⟨2 * n + 1, by omega, ?_⟩⟩, fun j => ?_,
    fun j _ x _ => ?_, rfl⟩
  · unfold fairMoves; rw [if_pos (by omega)]; rfl
  · unfold fairMoves; rw [if_neg (by omega)]
  · unfold fairRun; split <;> rfl
  · rw [fairRun_fetched]; simp

theorem witness_QuitClearsRun : ∃ s : State, s.schedule = .quit :: [] ∧ s.err ≠ none := ⟨haltedState, rfl, by decide⟩

/-- The halted state before an instruction step, a tick, a quit and a reset. -/
theorem witness_HaltedStateIsFrozen : ∃ s t u w x : State,
    (s.run = false ∧ s.nextMove.isInstr = true) ∧ (t.run = false ∧ t.nextMove = .tick) ∧
    (u.run = false ∧ step u = .next x) ∧ w.run = false ∧ w.nextMove = .reset [] :=
  ⟨{ haltedState with schedule := [] }, { haltedState with schedule := [.tick] }, haltedState,
    { haltedState with schedule := [.reset []] }, _, ⟨rfl, rfl⟩, ⟨rfl, rfl⟩, ⟨rfl, rfl⟩, rfl, rfl⟩

/-- The empty ROM, the longest that fits, the shortest that does not. -/
theorem witness_ResetLoadsRom : ∃ s t u : State, ∃ rom rom' : List Byte,
    s.schedule = .reset [] :: [] ∧ t.schedule = .reset rom :: [] ∧ rom.length = 3584 ∧
    u.schedule = .reset rom' :: [] ∧ rom'.length = 3585 :=
  ⟨loopAt [.reset []], loopAt [.reset (List.replicate 3584 0x5A#8)], loopAt [.reset (List.replicate 3585 0x5A#8)],
    List.replicate 3584 0x5A#8, List.replicate 3585 0x5A#8, rfl, rfl, List.length_replicate, rfl, List.length_replicate⟩

theorem witness_BeepFollowsSoundTimer : ∃ s : State, s.run = true ∧ s.nextMove = .tick ∧ s.st = 1#8 :=
  ⟨(loopAt [.tick]).setSt 1#8, rfl, rfl, rfl⟩

/-- A state of the invariant other than reset: a running loop. -/
theorem witness_StepKeepsInvariant : ∃ s t : State, s.Inv ∧ step s = .next t := by
  refine ⟨loopAt [.instr 0 0], _, ⟨by decide, by decide, by decide, by decide, fun _ => rfl, ?_, ?_, ?_⟩, rfl⟩
  · intro e h; cases h
  · intro e h; cases h
  · intro e op h; cases h

/-- A state of the invariant with an error recorded. -/
theorem witness_FirstErrorIsLatched : ∃ s t : State, ∃ e : ErrRecord, s.Inv ∧ s.err = some e ∧ step s = .next t := by
  refine ⟨haltedState, _, { kind := .unsupportedOpcode, opcode := some 0x0000#16, pc := 0x0200#16 },
    ⟨by decide, by decide, by decide, by decide, ?_, ?_, ?_, ?_⟩, rfl, rfl⟩
  · intro h; cases h
  · intro e h; cases h; rfl
  · intro e h; cases h; exact (by decide : supported 0x0000#16 = false)
  · intro e op h ho; cases h; cases ho; rfl

/-- A step that changes a pixel: CLS with pixels on. -/
theorem witness_OnlyDisplayInstructionsDraw : ∃ s t : State,
    step s = .next t ∧ t.fb.pixel 0 0 ≠ s.fb.pixel 0 0 := ⟨ready 0x00E0#16 lit 0 0, _, rfl, by decide⟩

/-- A step that changes a byte: BCD of 9 at 0xFFD. -/
theorem witness_OnlyStoresWriteMemory : ∃ s t : State,
    step s = .next t ∧ Memory.read t.mem 0xFFF ≠ Memory.read s.mem 0xFFF :=
  ⟨ready 0xF033#16 ((regs [(0, 9#8)]).setI 0xFFD#16) 0 0, _, rfl, by decide⟩

/-- A step that changes the stack: a call. -/
theorem witness_OnlyCallAndReturnTouchStack : ∃ s t : State, step s = .next t ∧ t.sp ≠ s.sp :=
  ⟨ready 0x2300#16 State.reset 0 0, _, rfl, by decide⟩

end Sys2Proof.Tests
end

section
/-! What each instruction that can fault answers, on both sides of its check: the equations the statements about exec
share. The other 21 instructions have no check, and exec of one is its meaning by definition. -/

namespace Sys2Proof.Machine

variable {s : State}

/-! ### An instruction that meets a fault of its own (60_exceptions.md R152 to R154) -/

/-- Every instruction fault is the fault entry with the instruction's own word. -/
theorem exec_of_faultOf_some {i : Instr} {k : ErrKind} (h : faultOf i s = some k) :
    exec i s = .next (s.raise k (some (encodeWord i))) := by
  cases i with
  | ret =>
    obtain ⟨hsp, ⟨⟩⟩ := Option.ite_none_right_eq_some.mp h
    simp [exec, execRet, State.pop_none s hsp]
  | call nnn =>
    obtain ⟨hsp, ⟨⟩⟩ := Option.ite_none_right_eq_some.mp h
    simp [exec, execCall, State.push_none s _ hsp]
  | drwVxVyN x y n =>
    obtain ⟨⟨hn, hi⟩, ⟨⟩⟩ := Option.ite_none_right_eq_some.mp h
    have hbad : addrOk (s.addr (n.val - 1)) = false := by rw [addrOk_false_iff, State.addr_eq]; omega
    simp [exec, execDrwVxVyN, hn, hbad]
  | bcdVx x =>
    obtain ⟨hi, ⟨⟩⟩ := Option.ite_none_right_eq_some.mp h
    simp [exec, execBcdVx, (addrOk_false_iff (s.addr 2)).mpr hi]
  | stV0Vx x =>
    obtain ⟨hi, ⟨⟩⟩ := Option.ite_none_right_eq_some.mp h
    simp [exec, execStV0Vx, (addrOk_false_iff (s.addr x.val)).mpr hi]
  | ldV0Vx x =>
    obtain ⟨hi, ⟨⟩⟩ := Option.ite_none_right_eq_some.mp h
    simp [exec, execLdV0Vx, (addrOk_false_iff (s.addr x.val)).mpr hi]
  | _ => cases h

/-! ### The six instructions with a check, where it passes -/

/-- RET with an address on the stack (R100). -/
theorem exec_ret_of_sp (k : Fin 16) (h : s.sp.val = k.val + 1) :
    exec .ret s = .next (State.setPc { s with sp := ⟨k.val, by omega⟩ } s.stack[k]) := by
  simp [exec, execRet, State.pop_some s k h]

/-- CALL with room on the stack (R102). -/
theorem exec_call_of_sp (nnn : Addr12) (h : s.sp.val < 16) :
    exec (.call nnn) s = .next (State.setPc
      { s with stack := s.stack.set s.sp.val (s.pc + 2#16), sp := ⟨s.sp.val + 1, by omega⟩ } (addrOf nnn)) := by
  simp [exec, execCall, State.push_some s _ h]

/-- A draw whose rows all lie in the address space (R131). -/
theorem exec_drwVxVyN_of_faultOf_none {x y : Reg} {n : Fin 16} (h : faultOf (.drwVxVyN x y n) s = none) :
    exec (.drwVxVyN x y n) s =
      .next ((s.setFb (s.drawn x y n.val).fb).setV VF (flagByte (s.drawn x y n.val).coll)).advance := by
  have hok : 0 < n.val → addrOk (s.addr (n.val - 1)) = true := by
    simp only [faultOf, ite_eq_right_iff, reduceCtorEq, imp_false, addrOk_iff, State.addr_eq] at h ⊢
    omega
  by_cases hn : 0 < n.val
  · simp [exec, execDrwVxVyN, hok hn]
  · simp [exec, execDrwVxVyN, hn]

/-- BCD with its three bytes in the address space (R143). -/
theorem exec_bcdVx_of_le (x : Reg) (h : s.i.toNat + 2 ≤ 0xFFF) :
    exec (.bcdVx x) s = .next (s.setMem (s.mem.writeMany (s.addr 0) (bcdDigit (s.getV x)) 3)).advance :=
  if_pos ((addrOk_iff _).mpr h)

/-- A register store with its block in the address space (R144). -/
theorem exec_stV0Vx_of_le (x : Reg) (h : s.i.toNat + x.val ≤ 0xFFF) :
    exec (.stV0Vx x) s = .next (s.setMem (s.mem.writeMany (s.addr 0) s.regAt (x.val + 1))).advance :=
  if_pos ((addrOk_iff _).mpr h)

/-- A register load with its block in the address space (R145). -/
theorem exec_ldV0Vx_of_le (x : Reg) (h : s.i.toNat + x.val ≤ 0xFFF) :
    exec (.ldV0Vx x) s = .next (s.setRegs (s.loadedRegs (s.addr 0) (x.val + 1))).advance :=
  if_pos ((addrOk_iff _).mpr h)

/-! ### What the absence of a fault says of the state -/

theorem faultOf_ret_eq_none_iff : faultOf .ret s = none ↔ ∃ k : Fin 16, s.sp.val = k.val + 1 := by
  have := s.sp.isLt
  simp only [faultOf, ite_eq_right_iff, reduceCtorEq, imp_false]
  exact ⟨fun h => ⟨⟨s.sp.val - 1, by omega⟩, by simp only; omega⟩, fun ⟨k, hk⟩ => by omega⟩

theorem faultOf_call_eq_none_iff (nnn : Addr12) : faultOf (.call nnn) s = none ↔ s.sp.val < 16 := by
  have := s.sp.isLt
  simp only [faultOf, ite_eq_right_iff, reduceCtorEq, imp_false]
  omega

theorem faultOf_bcdVx_eq_none_iff (x : Reg) : faultOf (.bcdVx x) s = none ↔ s.i.toNat + 2 ≤ 0xFFF := by
  simp [faultOf]

theorem faultOf_stV0Vx_eq_none_iff (x : Reg) : faultOf (.stV0Vx x) s = none ↔ s.i.toNat + x.val ≤ 0xFFF := by
  simp [faultOf]

theorem faultOf_ldV0Vx_eq_none_iff (x : Reg) : faultOf (.ldV0Vx x) s = none ↔ s.i.toNat + x.val ≤ 0xFFF := by
  simp [faultOf]

/-! ### RUN and PC around a halt -/

/-- An instruction that meets no fault of its own leaves RUN (10_state.md R32). -/
theorem exec_run_of_faultOf_none {i : Instr} {t : State} (hf : faultOf i s = none) (h : exec i s = .next t) :
    t.run = s.run := by
  cases i with
  | ret =>
    obtain ⟨k, hk⟩ := faultOf_ret_eq_none_iff.mp hf
    cases (exec_ret_of_sp k hk).symm.trans h
    rfl
  | call nnn =>
    cases (exec_call_of_sp nnn ((faultOf_call_eq_none_iff nnn).mp hf)).symm.trans h
    rfl
  | drwVxVyN x y n =>
    cases (exec_drwVxVyN_of_faultOf_none hf).symm.trans h
    rfl
  | bcdVx x =>
    cases (exec_bcdVx_of_le x ((faultOf_bcdVx_eq_none_iff x).mp hf)).symm.trans h
    rfl
  | stV0Vx x =>
    cases (exec_stV0Vx_of_le x ((faultOf_stV0Vx_eq_none_iff x).mp hf)).symm.trans h
    rfl
  | ldV0Vx x =>
    cases (exec_ldV0Vx_of_le x ((faultOf_ldV0Vx_eq_none_iff x).mp hf)).symm.trans h
    rfl
  | seVxNn | sneVxNn | skpVx | sknpVx => cases h; exact State.skipIf_run s _
  | _ => cases h; rfl

/-- An instruction that clears RUN leaves PC (10_state.md R24). -/
theorem exec_pc_of_halts {i : Instr} {t : State} (h : exec i s = .next t) (hs : s.run = true) (ht : t.run = false) :
    t.pc = s.pc := by
  cases hf : faultOf i s with
  | none => exact absurd (ht.symm.trans ((exec_run_of_faultOf_none hf h).trans hs)) Bool.false_ne_true
  | some k =>
    cases (exec_of_faultOf_some hf).symm.trans h
    rfl

/-- An instruction step that clears RUN leaves PC, whether the fetch, the decoder or the instruction faults. -/
theorem instrStep_pc_of_halts {t : State} (h : instrStep s = .next t) (hs : s.run = true) (ht : t.run = false) :
    t.pc = s.pc := by
  obtain ⟨i, -, -, -, hx⟩ | ⟨-, -, -, rfl⟩ | ⟨-, -, rfl⟩ := instrStep_cases h
  · exact exec_pc_of_halts hx hs ht
  · rfl
  · rfl

/-- Any step but a reset that clears RUN leaves PC. -/
theorem step_pc_of_halts {t : State} (h : step s = .next t) (hs : s.run = true) (ht : t.run = false)
    (hm : ∀ rom, s.nextMove ≠ .reset rom) : t.pc = s.pc := by
  obtain ⟨keys, rnd, -, -, hi⟩ | ⟨-, -, rfl⟩ | ⟨-, rfl⟩ | ⟨rom, hr, -⟩ := step_cases h
  · simpa using instrStep_pc_of_halts hi (by simpa using hs) ht
  · simp
  · simp
  · exact absurd hr (hm rom)

/-! ### The timer tick -/

/-- A tick while the machine runs. -/
theorem step_tick (hs : s.run = true) (hm : s.nextMove = .tick) : step s = .next s.popMove.timerTick := by
  simp [step, act, hm, hs]

/-! ### BEEP (10_state.md R43) -/

theorem State.beep_iff (s : State) : s.beep = true ↔ s.st ≠ 0#8 := bne_iff_ne

/-- A timer that one tick does not exhaust stands at 2 or more. -/
theorem countDown_ne_zero_iff (b : Byte) : countDown b ≠ 0#8 ↔ 2 ≤ b.toNat := by
  rw [ne_eq, ← BitVec.toNat_inj, toNat_countDown]
  simp only [BitVec.toNat_ofNat, Nat.zero_mod]
  omega

end Sys2Proof.Machine
end

section
/-! The obligations of 10_state.md: the PC policy (R24) and BEEP (R43). -/

namespace Sys2Proof.Machine

/-- Settles O39: the six instructions with a check by their equations, the others by their meaning; the halting step and
the tick by the cases of a step. -/
theorem pcPolicy : Obligations.PcPolicy := by
  refine ⟨fun i s hf => ?_, fun s t hs hm h ht => step_pc_of_halts h hs ht hm, fun s t hm h => ?_⟩
  · cases i with
    | jp nnn => exact ⟨_, rfl, by simp⟩
    | call nnn => exact ⟨_, exec_call_of_sp nnn ((faultOf_call_eq_none_iff nnn).mp hf), by simp⟩
    | ret =>
      obtain ⟨k, hk⟩ := faultOf_ret_eq_none_iff.mp hf
      refine ⟨_, exec_ret_of_sp k hk, fun j hj => ?_⟩
      obtain rfl : j = k := Fin.ext (by omega)
      rfl
    | seVxNn x nn => exact ⟨_, rfl, by simp⟩
    | sneVxNn x nn => exact ⟨_, rfl, by simp⟩
    | skpVx x => exact ⟨_, rfl, by simp⟩
    | sknpVx x => exact ⟨_, rfl, by cases hk : s.keyPressed x <;> simp [hk]⟩
    | drwVxVyN x y n => exact ⟨_, exec_drwVxVyN_of_faultOf_none hf, rfl⟩
    | bcdVx x => exact ⟨_, exec_bcdVx_of_le x ((faultOf_bcdVx_eq_none_iff x).mp hf), rfl⟩
    | stV0Vx x => exact ⟨_, exec_stV0Vx_of_le x ((faultOf_stV0Vx_eq_none_iff x).mp hf), rfl⟩
    | ldV0Vx x => exact ⟨_, exec_ldV0Vx_of_le x ((faultOf_ldV0Vx_eq_none_iff x).mp hf), rfl⟩
    | _ => exact ⟨_, rfl, rfl⟩
  · obtain ⟨_, _, hi, -⟩ | ⟨-, -, rfl⟩ | ⟨hq, -⟩ | ⟨rom, hr, -⟩ := step_cases h
    · cases hm.symm.trans hi
    · simp
    · cases hm.symm.trans hq
    · cases hm.symm.trans hr

/-- Settles O49: BEEP reads ST alone, LD ST, Vx sets it, and a tick leaves it nonzero exactly from 2 up. -/
theorem beepFollowsSoundTimer : Obligations.BeepFollowsSoundTimer := by
  refine ⟨State.beep_iff, fun x s => ⟨_, rfl, State.beep_iff _⟩, fun s hs hm => ⟨_, step_tick hs hm, ?_⟩⟩
  rw [State.beep_iff, State.timerTick_st, State.popMove_st, countDown_ne_zero_iff]

end Sys2Proof.Machine
end

section
/-! The decoder against the opcode map (30_encoding.md R75 to R77): what each mask of the map keeps of a word, the rows
as the decoder reads them, and the words with no row. -/

namespace Sys2Proof

/-! ### A word from its fields (R73) -/

theorem formatNNN_fields (op : Word) : formatNNN (fieldFam op) (fieldNNN op) = op := by
  apply BitVec.eq_of_toNat_eq
  rw [toNat_formatNNN, toNat_fieldFam, toNat_fieldNNN]; omega

theorem formatXNN_fields (op : Word) : formatXNN (fieldFam op) (fieldX op) (fieldNN op) = op := by
  apply BitVec.eq_of_toNat_eq
  rw [toNat_formatXNN, toNat_fieldFam, val_fieldX, toNat_fieldNN]; omega

theorem formatXYN_fields (op : Word) : formatXYN (fieldFam op) (fieldX op) (fieldY op) (fieldN op) = op := by
  apply BitVec.eq_of_toNat_eq
  rw [toNat_formatXYN, toNat_fieldFam, val_fieldX, val_fieldY, val_fieldN]; omega

/-! ### What each mask keeps: the whole nibbles it covers -/

theorem and_FFFF (op : Word) : op &&& 0xFFFF = op := BitVec.and_allOnes

theorem formatNNN_and_F000 (fam : BitVec 4) (nnn : Addr12) : formatNNN fam nnn &&& 0xF000 = formatNNN fam 0#12 := by
  refine (BitVec.and_append (x₂ := BitVec.allOnes 4) (y₂ := 0#12)).trans ?_
  rw [BitVec.and_allOnes, BitVec.and_zero]; rfl

theorem formatXYN_and_F00F (fam : BitVec 4) (x y : Reg) (n : Fin 16) :
    formatXYN fam x y n &&& 0xF00F = formatXYN fam 0 0 n := by
  refine (BitVec.and_append (x₂ := BitVec.allOnes 4 ++ 0#4 ++ 0#4) (y₂ := BitVec.allOnes 4)).trans ?_
  rw [BitVec.and_append, BitVec.and_append, BitVec.and_allOnes, BitVec.and_allOnes, BitVec.and_zero, BitVec.and_zero]
  rfl

theorem formatXNN_and_F0FF (fam : BitVec 4) (x : Reg) (nn : Byte) :
    formatXNN fam x nn &&& 0xF0FF = formatXNN fam 0 nn := by
  refine (BitVec.and_append (x₂ := BitVec.allOnes 4 ++ 0#4) (y₂ := BitVec.allOnes 8)).trans ?_
  rw [BitVec.and_append, BitVec.and_allOnes, BitVec.and_allOnes, BitVec.and_zero]; rfl

/-- A row of format NNN, XNN or XYN selects by the family. -/
theorem and_F000_eq_iff (op p : Word) :
    op &&& 0xF000 = p ↔ op.toNat / 4096 = p.toNat / 4096 ∧ p.toNat % 4096 = 0 := by
  have h := formatNNN_and_F000 (fieldFam op) (fieldNNN op)
  rw [formatNNN_fields] at h
  rw [h, ← BitVec.toNat_inj, toNat_formatNNN, toNat_fieldFam, BitVec.toNat_ofNat]; omega

/-- A row of format XYS selects by the family and the low nibble. -/
theorem and_F00F_eq_iff (op p : Word) :
    op &&& 0xF00F = p ↔
      op.toNat / 4096 = p.toNat / 4096 ∧ op.toNat % 16 = p.toNat % 16 ∧ p.toNat / 16 % 256 = 0 := by
  have h := formatXYN_and_F00F (fieldFam op) (fieldX op) (fieldY op) (fieldN op)
  rw [formatXYN_fields] at h
  rw [h, ← BitVec.toNat_inj, toNat_formatXYN, toNat_fieldFam, val_fieldN, Fin.val_zero]; omega

/-- A row of format XS selects by the family and the low byte. -/
theorem and_F0FF_eq_iff (op p : Word) :
    op &&& 0xF0FF = p ↔
      op.toNat / 4096 = p.toNat / 4096 ∧ op.toNat % 256 = p.toNat % 256 ∧ p.toNat / 256 % 16 = 0 := by
  have h := formatXNN_and_F0FF (fieldFam op) (fieldX op) (fieldNN op)
  rw [formatXNN_fields] at h
  rw [h, ← BitVec.toNat_inj, toNat_formatXNN, toNat_fieldFam, toNat_fieldNN, Fin.val_zero]; omega

/-! ### The rows -/

/-- Two rows whose patterns differ on a bit that both masks keep have no word in common. -/
theorem OpcodeRow.not_both_select {r r' : OpcodeRow} (h : r.pattern &&& r'.mask ≠ r'.pattern &&& r.mask) (op : Word) :
    ¬ (r.selects op = true ∧ r'.selects op = true) := by
  simp only [OpcodeRow.selects, beq_iff_eq]
  rintro ⟨hr, hr'⟩
  apply h
  rw [← hr, ← hr', BitVec.and_assoc, BitVec.and_assoc, BitVec.and_comm r.mask]

/-- A word decodes by the row that selects it. -/
theorem decodeWord_of_row {op : Word} {r : OpcodeRow} (hr : r ∈ opcodeMap) (h : op &&& r.mask = r.pattern) :
    decodeWord op = .ok (r.build op) := by
  simp only [opcodeMap, List.cons_append, List.nil_append, List.mem_cons, List.not_mem_nil, or_false] at hr
  rcases hr with rfl | rfl | rfl | rfl | rfl | rfl | rfl | rfl | rfl | rfl | rfl | rfl | rfl | rfl | rfl | rfl | rfl
    | rfl | rfl | rfl | rfl | rfl | rfl | rfl | rfl | rfl | rfl
  -- CLS and RET: the whole word selects.
  iterate 2
    obtain rfl := (and_FFFF op).symm.trans h
    rfl
  -- JP to ADD Vx, nn: the family selects.
  iterate 6
    obtain ⟨hf, -⟩ := (and_F000_eq_iff op _).mp h
    simp [decodeWord, toNat_fieldFam, hf]
  -- Family 8: the low nibble selects.
  iterate 8
    obtain ⟨hf, hn, -⟩ := (and_F00F_eq_iff op _).mp h
    simp [decodeWord, decodeFam8, toNat_fieldFam, val_fieldN, hf, hn]
  -- LD I, RND and DRW: the family selects.
  iterate 3
    obtain ⟨hf, -⟩ := (and_F000_eq_iff op _).mp h
    simp [decodeWord, toNat_fieldFam, hf]
  -- Families E and F: the low byte selects.
  iterate 8
    obtain ⟨hf, hn, -⟩ := (and_F0FF_eq_iff op _).mp h
    simp [decodeWord, decodeFamE, decodeFamF, toNat_fieldFam, toNat_fieldNN, hf, hn]

/-! ### The supported words (R77) -/

/-- What the list (a) to (g) leaves: the two words of family 0, the families without an unsupported word, and the
selectors of families 8, E and F. -/
theorem supported_cases {op : Word} (h : supported op = true) :
    op.toNat ∈ [0x00E0, 0x00EE] ∨ op.toNat / 4096 ∈ [1, 2, 3, 4, 6, 7, 0xA, 0xC, 0xD] ∨
      (op.toNat / 4096 = 8 ∧ op.toNat % 16 ∈ [0, 1, 2, 3, 4, 5, 6, 0xE]) ∨
      (op.toNat / 4096 = 0xE ∧ op.toNat % 256 ∈ [0x9E, 0xA1]) ∨
      (op.toNat / 4096 = 0xF ∧ op.toNat % 256 ∈ [0x07, 0x15, 0x18, 0x33, 0x55, 0x65]) := by
  unfold supported at h
  split at h
  case h_1 => exact .inl (by simpa [← BitVec.toNat_inj] using h)
  case h_3 hf =>
    have hn : op.toNat % 16 ∈ [0, 1, 2, 3, 4, 5, 6, 0xE] := by
      have : op.toNat % 16 < 16 := by omega
      interval_cases op.toNat % 16 <;> simp_all
    exact .inr (.inr (.inl ⟨hf, hn⟩))
  case h_6 hf => exact .inr (.inr (.inr (.inl ⟨hf, by simpa using h⟩)))
  case h_7 hf => exact .inr (.inr (.inr (.inr ⟨hf, by simpa [or_assoc] using h⟩)))
  case h_8 h0 h5 h8 h9 hB hE hF =>
    have hf : op.toNat / 4096 < 16 := by omega
    refine .inr (.inl ?_)
    clear h
    interval_cases op.toNat / 4096 <;> simp_all
  all_goals cases h

/-- Every supported word has its row. -/
theorem exists_row_of_supported {op : Word} (h : supported op = true) :
    ∃ r ∈ opcodeMap, op &&& r.mask = r.pattern := by
  obtain hw | hf | ⟨hf, hn⟩ | ⟨hf, hn⟩ | ⟨hf, hn⟩ := supported_cases h
  · obtain ⟨r, hr, hm, hp⟩ := (by decide : ∀ w ∈ [0x00E0, 0x00EE],
      ∃ r ∈ opcodeMap, r.mask = 0xFFFF ∧ r.pattern.toNat = w) _ hw
    exact ⟨r, hr, by rw [hm, and_FFFF, ← BitVec.toNat_inj, hp]⟩
  · obtain ⟨r, hr, hm, hp⟩ := (by decide : ∀ f ∈ [1, 2, 3, 4, 6, 7, 0xA, 0xC, 0xD],
      ∃ r ∈ opcodeMap, r.mask = 0xF000 ∧ r.pattern.toNat = f * 4096) _ hf
    exact ⟨r, hr, by rw [hm, and_F000_eq_iff]; omega⟩
  · obtain ⟨r, hr, hm, hp⟩ := (by decide : ∀ n ∈ [0, 1, 2, 3, 4, 5, 6, 0xE],
      ∃ r ∈ opcodeMap, r.mask = 0xF00F ∧ r.pattern.toNat = 8 * 4096 + n) _ hn
    exact ⟨r, hr, by rw [hm, and_F00F_eq_iff]; omega⟩
  · obtain ⟨r, hr, hm, hp⟩ := (by decide : ∀ nn ∈ [0x9E, 0xA1],
      ∃ r ∈ opcodeMap, r.mask = 0xF0FF ∧ r.pattern.toNat = 0xE * 4096 + nn) _ hn
    exact ⟨r, hr, by rw [hm, and_F0FF_eq_iff]; omega⟩
  · obtain ⟨r, hr, hm, hp⟩ := (by decide : ∀ nn ∈ [0x07, 0x15, 0x18, 0x33, 0x55, 0x65],
      ∃ r ∈ opcodeMap, r.mask = 0xF0FF ∧ r.pattern.toNat = 0xF * 4096 + nn) _ hn
    exact ⟨r, hr, by rw [hm, and_F0FF_eq_iff]; omega⟩

/-- The decoder refuses the words of the list, with the word itself. -/
theorem decodeWord_of_unsupported {op : Word} (h : supported op = false) :
    decodeWord op = .error (.unsupported op) := by
  unfold supported at h
  unfold decodeWord
  rw [toNat_fieldFam]
  split at h
  case h_1 hf =>
    simp only [hf, decodeFam0]
    simp_all
  case h_3 hf =>
    simp only [hf, decodeFam8, val_fieldN]
    split <;> simp_all
  case h_6 hf =>
    simp only [hf, decodeFamE, toNat_fieldNN]
    split <;> simp_all
  case h_7 hf =>
    simp only [hf, decodeFamF, toNat_fieldNN]
    split <;> simp_all
  case h_8 => cases h
  all_goals next hf => simp only [hf]

/-- The words of the list are those that no row selects. -/
theorem supported_eq_false_iff (op : Word) :
    supported op = false ↔ ∀ r ∈ opcodeMap, op &&& r.mask ≠ r.pattern := by
  constructor
  · intro h r hr hs
    cases (decodeWord_of_unsupported h).symm.trans (decodeWord_of_row hr hs)
  · intro h
    rw [← Bool.not_eq_true]
    intro hs
    obtain ⟨r, hr, hs⟩ := exists_row_of_supported hs
    exact h r hr hs

/-! ### Two bytes given to the decoder -/

theorem decode_pair_eq_ok_iff (b0 b1 : Byte) (i : Instr) :
    decode [b0, b1] = .ok (i, []) ↔ decodeWord (wordOfBytes b0 b1) = .ok i := by
  cases h : decodeWord (wordOfBytes b0 b1) <;> simp [decode, h]

theorem decode_pair_eq_error_iff (b0 b1 : Byte) (e : DecodeError) :
    decode [b0, b1] = .error e ↔ decodeWord (wordOfBytes b0 b1) = .error e := by
  cases h : decodeWord (wordOfBytes b0 b1) <;> simp [decode, h]

end Sys2Proof
end

section
/-! The instruction step as equations (30_encoding.md R70): each thing the fetch and the decoder can give. -/

namespace Sys2Proof.Machine

variable {s : State} {keys : BitVec 16} {rnd : Byte}

/-- While RUN is 1, the step is the instruction step on the inputs drawn for it. -/
theorem step_instr (hm : s.nextMove = .instr keys rnd) (hs : s.run = true) :
    step s = instrStep (s.popMove.setInputs keys rnd) := by
  simp [step, act, hm, hs]

/-- While RUN is 0, no instruction step is taken (60_exceptions.md R170). -/
theorem step_instr_of_halted (hm : s.nextMove = .instr keys rnd) (hs : s.run = false) : step s = .fault .halted := by
  simp [step, act, hm, hs]

/-- A fetch outside the address space (R154). -/
theorem step_of_fetch_out (hm : s.nextMove = .instr keys rnd) (hs : s.run = true) (hf : s.pc.toNat + 1 > 0xFFF) :
    step s = .next ((s.popMove.setInputs keys rnd).raise .addressOutOfRange none) := by
  have hf : s.fetchOk = false := by rwa [← Bool.not_eq_true, State.fetchOk_iff, Nat.not_le]
  simp [step_instr hm hs, instrStep, hf]

/-- A word that decodes is executed. -/
theorem step_of_decode_ok {i : Instr} (hm : s.nextMove = .instr keys rnd) (hs : s.run = true)
    (hf : s.pc.toNat + 1 ≤ 0xFFF) (hd : decodeWord s.fetchWord = .ok i) :
    step s = exec i (s.popMove.setInputs keys rnd) := by
  simp [step_instr hm hs, instrStep, s.fetchOk_iff.mpr hf, hd]

/-- A word that does not decode is recorded (60_exceptions.md R151). -/
theorem step_of_decode_error {e : DecodeError} (hm : s.nextMove = .instr keys rnd) (hs : s.run = true)
    (hf : s.pc.toNat + 1 ≤ 0xFFF) (hd : decodeWord s.fetchWord = .error e) :
    step s = .next ((s.popMove.setInputs keys rnd).raise .unsupportedOpcode (some s.fetchWord)) := by
  simp [step_instr hm hs, instrStep, s.fetchOk_iff.mpr hf, hd]

end Sys2Proof.Machine
end

section
/-! The obligations of 30_encoding.md on the opcode map (R75, R77) and the instruction step (R70). -/

namespace Sys2Proof.Machine

/-- Settles O3: disjointness by comparing the patterns under the common mask, the rest row by row. -/
theorem decoderFollowsOpcodeMap : Obligations.DecoderFollowsOpcodeMap := by
  refine ⟨?_, fun op r hr h => decodeWord_of_row hr h, fun op h => ?_⟩
  · have hdiff : opcodeMap.Pairwise (fun r r' => r.pattern &&& r'.mask ≠ r'.pattern &&& r.mask) := by decide
    exact hdiff.imp OpcodeRow.not_both_select
  · exact decodeWord_of_unsupported ((supported_eq_false_iff op).mpr h)

/-- Settles O5: a word of the list has no row, so the decoder refuses it and the step records it. -/
theorem unsupportedWordRaises : Obligations.UnsupportedWordRaises := by
  refine ⟨supported_eq_false_iff, fun s keys rnd hs hm hf hu => ?_⟩
  exact ⟨_, step_of_decode_error hm hs hf (decodeWord_of_unsupported hu), rfl,
    by simp [State.fetchWord, Memory.readWord]⟩

/-- Settles O6: one equation of the instruction step for each clause. -/
theorem stepRunsDecodedInstruction : Obligations.StepRunsDecodedInstruction := by
  intro s keys rnd hm b0 b1
  refine ⟨fun hs hf => ?_, fun hs hf i hd => ?_, fun hs hf e hd => ?_, fun hs t h => ?_⟩
  · exact ⟨_, step_of_fetch_out hm hs hf, rfl, by simp⟩
  · exact step_of_decode_ok hm hs hf ((decode_pair_eq_ok_iff b0 b1 i).mp hd)
  · exact ⟨_, step_of_decode_error hm hs hf ((decode_pair_eq_error_iff b0 b1 e).mp hd), rfl,
      by simp [State.fetchWord, Memory.readWord, wordOfBytes, b0, b1]⟩
  · cases (step_instr_of_halted hm hs).symm.trans h

end Sys2Proof.Machine
end

section
/-! What control transfer needs beside the equations of exec: the word CALL records, the frames of CALL and RET, and a
skip that tests for inequality. -/

namespace Sys2Proof.Machine

/-- The `2nnn` word as a number (30_encoding.md R76). -/
theorem encodeWord_call (nnn : Addr12) : encodeWord (.call nnn) = BitVec.ofNat 16 (0x2000 + nnn.toNat) := by
  apply BitVec.eq_of_toNat_eq
  rw [encodeWord, toNat_formatNNN, BitVec.toNat_ofNat, Nat.mod_eq_of_lt (by omega)]
  rfl

variable {s t : State}

/-- CALL with room on the stack writes the entry at SP, SP and PC. -/
theorem exec_call_frame {nnn : Addr12} {k : Fin 16} (hk : s.sp.val = k.val) (h : exec (.call nnn) s = .next t) :
    Frame (fun p => p = .stack k ∨ p = .sp ∨ p = .pc) s t := by
  have hlt : s.sp.val < 16 := by omega
  cases (exec_call_of_sp nnn hlt).symm.trans h
  refine (frame_push s (s.push_some _ hlt) (fun j hj => ?_) (.inr (.inl rfl))).trans
    (frame_setPc _ _ (.inr (.inr rfl)))
  exact .inl (congrArg Part.stack (Fin.ext (hj.trans hk)))

/-- RET with an address on the stack writes SP and PC. -/
theorem exec_ret_frame {k : Fin 16} (hk : s.sp.val = k.val + 1) (h : exec .ret s = .next t) :
    Frame (fun p => p = .sp ∨ p = .pc) s t := by
  cases (exec_ret_of_sp k hk).symm.trans h
  exact (frame_pop s (s.pop_some k hk) (.inl rfl)).trans (frame_setPc _ _ (.inr rfl))

/-- A skip on two bytes that differ takes the branches the other way round. -/
theorem State.skipIf_bne_pc (s : State) (a b : Byte) :
    (s.skipIf (a != b)).pc = if a = b then s.pc + 2#16 else s.pc + 4#16 := by
  by_cases h : a = b <;> simp [h]

end Sys2Proof.Machine
end

section
/-! The obligations of 40_control_transfer.md on JP, CALL, RET, SE and SNE (R100 to R104). -/

namespace Sys2Proof.Machine

/-- Settles O9: JP is one write of PC. -/
theorem jumpSetsPc : Obligations.JumpSetsPc :=
  fun nnn s => ⟨_, rfl, toNat_addrOf nnn, frame_setPc s _ rfl⟩

/-- Settles O10: with room on the stack the equation of CALL, on a full one its fault entry. -/
theorem callPushesReturnAddress : Obligations.CallPushesReturnAddress := by
  refine fun nnn s => ⟨fun k hk => ?_, fun hfull => ?_⟩
  · have hcall := exec_call_of_sp (s := s) nnn (by omega)
    exact ⟨_, hcall, by simp [hk], by simp [hk], toNat_addrOf nnn, exec_call_frame hk hcall⟩
  · have hfault : faultOf (.call nnn) s = some .stackOverflow := if_pos hfull
    exact ⟨_, exec_of_faultOf_some hfault, by rw [State.raise_err, encodeWord_call], rfl, rfl, rfl, rfl⟩

/-- Settles O11: with an address on the stack the equation of RET, on an empty one its fault entry. -/
theorem returnPopsPc : Obligations.ReturnPopsPc := by
  refine fun s => ⟨fun k hk => ?_, fun hempty => ?_⟩
  · have hret := exec_ret_of_sp k hk
    exact ⟨_, hret, rfl, rfl, exec_ret_frame hk hret⟩
  · have hfault : faultOf .ret s = some .stackUnderflow := if_pos hempty
    exact ⟨_, exec_of_faultOf_some hfault, rfl, rfl, rfl, rfl, rfl⟩

/-- Settles O13: both are one conditional skip, on the comparison and on its negation. -/
theorem immediateSkips : Obligations.ImmediateSkips := by
  refine fun x nn s => ⟨⟨_, rfl, ?_, frame_skipIf s _ rfl⟩, ⟨_, rfl, ?_, frame_skipIf s _ rfl⟩⟩
  · simp
  · exact s.skipIf_bne_pc _ nn

end Sys2Proof.Machine
end

section
/-! What a flag-producing instruction leaves in its destination and in VF (41_load_alu.md R123), and the carry flag as
the byte R116 gives. -/

namespace Sys2Proof.Machine

theorem State.setResultFlag_get_of_ne (s : State) {x : Reg} (hx : x ≠ VF) (b : Byte) (c : Bool) :
    (s.setResultFlag x b c).v[x] = b := by
  have hval : VF.val ≠ x.val := fun e => hx (Fin.ext e.symm)
  rw [State.setResultFlag_v, Fin.getElem_fin, Vector.getElem_set_ne _ _ hval, Vector.getElem_set_self]

theorem State.setResultFlag_get_VF (s : State) (x : Reg) (b : Byte) (c : Bool) :
    (s.setResultFlag x b c).v[VF] = flagByte c := by
  rw [State.setResultFlag_v, Fin.getElem_fin, Vector.getElem_set_self]

theorem flagByte_carryOut (a b : Byte) :
    flagByte (carryOut a b) = if a.toNat + b.toNat > 255 then 1#8 else 0#8 := by
  simp only [flagByte, carryOut, decide_eq_true_eq]

end Sys2Proof.Machine
end

section
/-! The obligations of 41_load_alu.md on LD Vx, nn, ADD Vx, Vy and LD I, nnn (R110, R116, R120). -/

namespace Sys2Proof.Machine

/-- Settles O16: one register write, then the advance of PC. -/
theorem loadImmediate : Obligations.LoadImmediate :=
  fun x nn s => ⟨_, rfl, Vector.getElem_set_self _, rfl,
    (frame_setV s x nn (.inl rfl)).trans (frame_advance _ (.inr rfl))⟩

/-- Settles O19: the sum survives the later flag write because `x` is not F, and the flag is the carry. -/
theorem addSetsCarry : Obligations.AddSetsCarry := by
  refine fun x y s hx => ⟨_, rfl, ?_, ?_, rfl, ?_⟩
  · rw [State.advance_v, State.setResultFlag_get_of_ne s hx]
    exact BitVec.toNat_add _ _
  · rw [State.advance_v, State.setResultFlag_get_VF]
    exact flagByte_carryOut _ _
  · exact (frame_setResultFlag s x _ _ (.inl rfl) (.inr (.inl rfl))).trans (frame_advance _ (.inr (.inr rfl)))

/-- Settles O24: one write of I, then the advance of PC. -/
theorem loadIndex : Obligations.LoadIndex :=
  fun nnn s => ⟨_, rfl, toNat_addrOf nnn, rfl, (frame_setI s _ (.inl rfl)).trans (frame_advance _ (.inr rfl))⟩

end Sys2Proof.Machine
end

section
/-! The obligation of 42_display.md on CLS (R130). -/

namespace Sys2Proof.Machine

/-- Settles O26: CLS puts up the blank framebuffer and advances PC. -/
theorem clearScreen : Obligations.ClearScreen :=
  fun s => ⟨_, rfl, Framebuffer.pixel_blank, rfl,
    (frame_setFb s _ (fun x y => .inl ⟨x, y, rfl⟩)).trans (frame_advance _ (.inr rfl))⟩

end Sys2Proof.Machine
end

section
/-! What BCD needs beside its equation: the three digits as numbers, the byte each leaves in memory, and its frame
(43_timer_memory.md R143). -/

namespace Sys2Proof.Machine

/-- Every digit is the number it stands for: none exceeds 9, so no byte wraps. -/
theorem toNat_bcdDigit (b : Byte) :
    (bcdDigit b 0).toNat = b.toNat / 100 ∧ (bcdDigit b 1).toNat = b.toNat / 10 % 10 ∧
      (bcdDigit b 2).toNat = b.toNat % 10 := by
  have := b.isLt
  simp only [bcdDigit, BitVec.toNat_ofNat]
  omega

/-- A block write leaves its `k`-th byte at the `k`-th address of the block. -/
theorem Memory.read_writeMany_add (m : Memory) (a : Nat) (f : Nat → Byte) {k n : Nat} (h : k < n) :
    Memory.read (Memory.writeMany m a f n) (a + k) = f k := by
  rw [Memory.read_writeMany, if_pos (by omega), Nat.add_sub_cancel_left]

/-- BCD with its three bytes in the address space writes those bytes and PC. -/
theorem exec_bcdVx_frame {s t : State} {x : Reg} (hi : s.i.toNat + 2 ≤ 0xFFF) (h : exec (.bcdVx x) s = .next t) :
    Frame (fun p => (∃ k, k ≤ 2 ∧ p = .byte (s.i.toNat + k)) ∨ p = .pc) s t := by
  cases (exec_bcdVx_of_le x hi).symm.trans h
  exact (frame_writeMany s _ _ _ fun k hk => .inl ⟨k, Nat.le_of_lt_succ hk, rfl⟩).trans (frame_advance _ (.inr rfl))

end Sys2Proof.Machine
end

section
/-! The obligation of 43_timer_memory.md on BCD (R143). -/

namespace Sys2Proof.Machine

/-- Settles O31: with its three bytes in the address space BCD is one block write of the digits, past it the fault
entry. -/
theorem bcdStoresDigits : Obligations.BcdStoresDigits := by
  refine fun x s => ⟨fun hi => ?_, fun hout => ?_⟩
  · have hbcd := exec_bcdVx_of_le x hi
    obtain ⟨hundreds, tens, ones⟩ := toNat_bcdDigit s.v[x]
    have hread {k : Nat} (hk : k < 3) :=
      congrArg BitVec.toNat (s.mem.read_writeMany_add s.i.toNat (bcdDigit s.v[x]) hk)
    exact ⟨_, hbcd, (hread (by decide)).trans hundreds, (hread (by decide)).trans tens,
      (hread (by decide)).trans ones, rfl, exec_bcdVx_frame hi hbcd⟩
  · have hfault : faultOf (.bcdVx x) s = some .addressOutOfRange := if_pos hout
    exact ⟨_, exec_of_faultOf_some hfault, rfl, ⟨_, rfl, rfl⟩, fun _ => rfl⟩

end Sys2Proof.Machine
end

section
/-! Decoding and encoding against each other (30_encoding.md R73 to R76): each format's word decodes to the operands it
was built from, and each row of the map encodes back to the word that selected it. -/

namespace Sys2Proof

/-! ### What each format's word decodes to -/

/-- The word of an instruction decodes to it, by the format of its row: fixed words, NNN, XNN, XYN. -/
@[simp] theorem decodeWord_encodeWord (i : Instr) : decodeWord (encodeWord i) = .ok i := by
  cases i with
  | cls | ret => rfl
  | jp nnn | call nnn | ldINnn nnn => simp [encodeWord, decodeWord]
  | seVxNn x nn | sneVxNn x nn | ldVxNn x nn | addVxNn x nn | rndVxNn x nn => simp [encodeWord, decodeWord]
  | ldVxVy x y | orVxVy x y | andVxVy x y | xorVxVy x y | addVxVy x y | subVxVy x y | shrVxVy x y | shlVxVy x y =>
    simp [encodeWord, decodeWord, decodeFam8]
  | drwVxVyN x y n => simp [encodeWord, decodeWord]
  | skpVx x | sknpVx x => simp [encodeWord, decodeWord, decodeFamE]
  | ldVxDt x | ldDtVx x | ldStVx x | bcdVx x | stV0Vx x | ldV0Vx x => simp [encodeWord, decodeWord, decodeFamF]

/-! ### What each row encodes -/

/-- The instruction a row builds from a word it selects has that word. -/
theorem encodeWord_build_of_row {op : Word} {r : OpcodeRow} (hr : r ∈ opcodeMap) (h : op &&& r.mask = r.pattern) :
    encodeWord (r.build op) = op := by
  simp only [opcodeMap, List.cons_append, List.nil_append, List.mem_cons, List.not_mem_nil, or_false] at hr
  rcases hr with rfl | rfl | rfl | rfl | rfl | rfl | rfl | rfl | rfl | rfl | rfl | rfl | rfl | rfl | rfl | rfl | rfl
    | rfl | rfl | rfl | rfl | rfl | rfl | rfl | rfl | rfl | rfl
  -- CLS and RET: the pattern is the whole word.
  iterate 2 exact h.symm.trans (and_FFFF op)
  all_goals apply BitVec.eq_of_toNat_eq
  -- JP to ADD Vx, nn: the family, and the fields below it.
  iterate 6
    obtain ⟨hf, -⟩ := (and_F000_eq_iff op _).mp h
    simp [encodeWord, toNat_formatNNN, toNat_formatXNN, toNat_fieldNNN, val_fieldX, toNat_fieldNN] at hf ⊢
    omega
  -- Family 8: the family, the selector, and the fields between.
  iterate 8
    obtain ⟨hf, hn, -⟩ := (and_F00F_eq_iff op _).mp h
    simp [encodeWord, toNat_formatXYN, val_fieldX, val_fieldY] at hf hn ⊢
    omega
  -- LD I, RND and DRW: the family, and the fields below it.
  iterate 3
    obtain ⟨hf, -⟩ := (and_F000_eq_iff op _).mp h
    simp [encodeWord, toNat_formatNNN, toNat_formatXNN, toNat_formatXYN, toNat_fieldNNN, val_fieldX, val_fieldY,
      val_fieldN, toNat_fieldNN] at hf ⊢
    omega
  -- Families E and F: the family, the selector byte, and `x` between.
  iterate 8
    obtain ⟨hf, hn, -⟩ := (and_F0FF_eq_iff op _).mp h
    simp [encodeWord, toNat_formatXNN, val_fieldX] at hf hn ⊢
    omega

/-- A word that decodes is supported. -/
theorem supported_of_decodeWord_ok {op : Word} {i : Instr} (h : decodeWord op = .ok i) : supported op = true := by
  rw [← Bool.not_eq_false]
  intro hu
  cases (decodeWord_of_unsupported hu).symm.trans h

/-- A word that does not decode is not. -/
theorem supported_eq_false_of_decodeWord_error {op : Word} {e : DecodeError} (h : decodeWord op = .error e) :
    supported op = false := by
  rw [← Bool.not_eq_true]
  intro hs
  obtain ⟨r, hr, hsel⟩ := exists_row_of_supported hs
  cases (decodeWord_of_row hr hsel).symm.trans h

/-- The word an instruction was decoded from is the instruction's. -/
theorem encodeWord_of_decodeWord {op : Word} {i : Instr} (h : decodeWord op = .ok i) : encodeWord i = op := by
  obtain ⟨r, hr, hsel⟩ := exists_row_of_supported (supported_of_decodeWord_ok h)
  cases (decodeWord_of_row hr hsel).symm.trans h
  exact encodeWord_build_of_row hr hsel

/-- A table word is decoded as the 16-bit word it is. -/
theorem decodeTableWord_eq_some_iff (w : Nat) (i : Instr) :
    decodeTableWord 16 w = some i ↔ decodeWord (BitVec.ofNat 16 (w % 2 ^ 16)) = .ok i := by
  simp only [decodeTableWord, decode, wordOfBytes_high_low]
  cases decodeWord (BitVec.ofNat 16 (w % 2 ^ 16)) <;> simp

end Sys2Proof
end

section
/-! The obligations of 30_encoding.md on the decoder and the encoder (sections 2 and 4). -/

namespace Sys2Proof.Machine

/-- Settles O1: the two bytes are the instruction's word again, which decodes to it. -/
theorem decodeOfEncodedInstruction : Obligations.DecodeOfEncodedInstruction := by
  intro i rest
  show decode (highByte (encodeWord i) :: lowByte (encodeWord i) :: rest) = _
  rw [decode, wordOfBytes_high_low, decodeWord_encodeWord]

/-- Settles O2: the row that selects the word builds the instruction, and encodes back to the word. -/
theorem encodeOfDecodedWord : Obligations.EncodeOfDecodedWord :=
  fun _ _ h => encodeWord_of_decodeWord h

/-- Settles O4: each sample evaluated by the decoder. -/
theorem sampleWordsDecode : Obligations.SampleWordsDecode :=
  ⟨rfl, rfl, rfl, rfl, rfl, rfl, rfl, rfl, rfl, rfl, rfl, rfl, rfl, rfl, rfl, rfl⟩

end Sys2Proof.Machine
end

section
/-! What an instruction changes, said once for all of them: the parts listed for it where it meets no fault, RUN and ERR
where it does; and which instructions list a given part. -/

namespace Sys2Proof.Machine

variable {s t : State} {i : Instr}

/-! ### The frame of every instruction -/

theorem faultOf_drwVxVyN_eq_none_iff (x y : Reg) (n : Fin 16) :
    faultOf (.drwVxVyN x y n) s = none ↔ n.val = 0 ∨ s.i.toNat + n.val - 1 ≤ 0xFFF := by
  simp only [faultOf, ite_eq_right_iff, reduceCtorEq, imp_false]
  omega

/-- An instruction whose meaning is one write to a register, then the advance of PC. -/
theorem frame_setV_advance {w : Part → Prop} (s : State) (x : Reg) (b : Byte) (hx : w (.v x)) (hpc : w .pc) :
    Frame w s (s.setV x b).advance :=
  (frame_setV s x b hx).trans (frame_advance _ hpc)

/-- An instruction whose meaning is a result and a flag, then the advance of PC. -/
theorem frame_setResultFlag_advance {w : Part → Prop} (s : State) (x : Reg) (b : Byte) (c : Bool) (hx : w (.v x))
    (hf : w (.v VF)) (hpc : w .pc) : Frame w s (s.setResultFlag x b c).advance :=
  (frame_setResultFlag s x b c hx hf).trans (frame_advance _ hpc)

/-- An instruction that meets no fault of its own completes and changes only the parts listed for it. -/
theorem exec_of_faultOf_none (hf : faultOf i s = none) : ∃ t, exec i s = .next t ∧ Frame (writesOf i s) s t := by
  cases i with
  | cls => exact ⟨_, rfl, (frame_setFb s _ fun x y => .inl ⟨x, y, rfl⟩).trans (frame_advance _ (.inr rfl))⟩
  | ret =>
    obtain ⟨k, hk⟩ := faultOf_ret_eq_none_iff.mp hf
    exact ⟨_, exec_ret_of_sp k hk, exec_ret_frame hk (exec_ret_of_sp k hk)⟩
  | jp nnn => exact ⟨_, rfl, frame_setPc s _ rfl⟩
  | call nnn =>
    have hlt := (faultOf_call_eq_none_iff nnn).mp hf
    have hframe := exec_call_frame (k := ⟨s.sp.val, hlt⟩) rfl (exec_call_of_sp nnn hlt)
    refine ⟨_, exec_call_of_sp nnn hlt, hframe.mono ?_⟩
    rintro p (rfl | hp)
    · exact .inl ⟨_, rfl, rfl⟩
    · exact .inr hp
  | seVxNn | sneVxNn | skpVx | sknpVx => exact ⟨_, rfl, frame_skipIf s _ rfl⟩
  | ldVxNn | addVxNn | ldVxVy | orVxVy | andVxVy | xorVxVy | rndVxNn | ldVxDt =>
    exact ⟨_, rfl, frame_setV_advance s _ _ (.inl rfl) (.inr rfl)⟩
  | addVxVy | subVxVy | shrVxVy | shlVxVy =>
    exact ⟨_, rfl, frame_setResultFlag_advance s _ _ _ (.inl rfl) (.inr (.inl rfl)) (.inr (.inr rfl))⟩
  | ldINnn nnn => exact ⟨_, rfl, (frame_setI s _ (.inl rfl)).trans (frame_advance _ (.inr rfl))⟩
  | drwVxVyN x y n =>
    exact ⟨_, exec_drwVxVyN_of_faultOf_none hf, (frame_setFb s _ fun x y => .inl ⟨x, y, rfl⟩).trans
      (frame_setV_advance _ VF _ (.inr (.inl rfl)) (.inr (.inr rfl)))⟩
  | ldDtVx x => exact ⟨_, rfl, (frame_setDt s _ (.inl rfl)).trans (frame_advance _ (.inr rfl))⟩
  | ldStVx x => exact ⟨_, rfl, (frame_setSt s _ (.inl rfl)).trans (frame_advance _ (.inr rfl))⟩
  | bcdVx x =>
    have hi := (faultOf_bcdVx_eq_none_iff x).mp hf
    exact ⟨_, exec_bcdVx_of_le x hi, exec_bcdVx_frame hi (exec_bcdVx_of_le x hi)⟩
  | stV0Vx x =>
    exact ⟨_, exec_stV0Vx_of_le x ((faultOf_stV0Vx_eq_none_iff x).mp hf),
      (frame_writeMany s _ _ _ fun k hk => .inl ⟨k, Nat.le_of_lt_succ hk, rfl⟩).trans (frame_advance _ (.inr rfl))⟩
  | ldV0Vx x =>
    exact ⟨_, exec_ldV0Vx_of_le x ((faultOf_ldV0Vx_eq_none_iff x).mp hf),
      (frame_loadedRegs s _ _ (by omega) fun r hr => .inl ⟨r, Nat.le_of_lt_succ hr, rfl⟩).trans
        (frame_advance _ (.inr rfl))⟩

theorem exec_frame (hf : faultOf i s = none) (h : exec i s = .next t) : Frame (writesOf i s) s t := by
  obtain ⟨u, hu, hframe⟩ := exec_of_faultOf_none hf
  cases hu.symm.trans h
  exact hframe

/-- Every instruction has a next state in every state. -/
theorem exec_total (i : Instr) (s : State) : ∃ t, exec i s = .next t := by
  cases hf : faultOf i s with
  | none => exact (exec_of_faultOf_none hf).imp fun _ h => h.1
  | some k => exact ⟨_, exec_of_faultOf_some hf⟩

/-- A part that an instruction changes is RUN, ERR, or one listed for it in a state where it meets no fault. -/
theorem exec_changes {p : Part} (h : exec i s = .next t) (hp : ¬ p.same s t) :
    p = .run ∨ p = .err ∨ (faultOf i s = none ∧ writesOf i s p) := by
  cases hf : faultOf i s with
  | none => exact .inr (.inr ⟨rfl, not_imp_comm.mp (exec_frame hf h p) hp⟩)
  | some k =>
    cases (exec_of_faultOf_some hf).symm.trans h
    have hre := not_imp_comm.mp ((faultsWith_raise s k _).2.2 p) hp
    exact hre.imp_right .inl

/-- A part that is neither RUN nor ERR nor listed for the instruction stays, fault or not. -/
theorem exec_same {p : Part} (h : exec i s = .next t) (hrun : p ≠ .run) (herr : p ≠ .err) (hw : ¬ writesOf i s p) :
    p.same s t :=
  not_imp_comm.mp (exec_changes h) fun hc => hc.elim hrun fun hc => hc.elim herr fun hc => hw hc.2

/-! ### Which instructions list a part -/

theorem writesOf_pixel_iff {x : Fin 64} {y : Fin 32} :
    writesOf i s (.pixel x y) ↔ i = .cls ∨ ∃ a b n, i = .drwVxVyN a b n := by
  cases i <;> simp [writesOf]

theorem writesOf_byte_iff {a : Nat} :
    writesOf i s (.byte a) ↔ (∃ x, i = .bcdVx x ∧ ∃ k, k ≤ 2 ∧ a = s.i.toNat + k) ∨
      ∃ x : Reg, i = .stV0Vx x ∧ ∃ k, k ≤ x.val ∧ a = s.i.toNat + k := by
  cases i <;> simp [writesOf]

theorem writesOf_sp_iff : writesOf i s .sp ↔ i = .ret ∨ ∃ nnn, i = .call nnn := by
  cases i <;> simp [writesOf]

theorem writesOf_stack_iff {k : Fin 16} : writesOf i s (.stack k) ↔ k.val = s.sp.val ∧ ∃ nnn, i = .call nnn := by
  cases i <;> simp [writesOf]

theorem writesOf_i_iff : writesOf i s .i ↔ ∃ nnn, i = .ldINnn nnn := by
  cases i <;> simp [writesOf]

theorem writesOf_dt_iff : writesOf i s .dt ↔ ∃ x, i = .ldDtVx x := by
  cases i <;> simp [writesOf]

/-- No instruction lists RUN or ERR, the ports, or the model's own fields. -/
theorem not_writesOf_of_mem {p : Part} (hp : p ∈ [.run, .err, .keys, .rnd, .cfg, .schedule, .draws]) :
    ¬ writesOf i s p := by
  simp only [List.mem_cons, List.not_mem_nil, or_false] at hp
  rcases hp with rfl | rfl | rfl | rfl | rfl | rfl | rfl <;> cases i <;> simp [writesOf]

/-! ### The flag -/

theorem flagByte_eq_zero_or_one (c : Bool) : flagByte c = 0#8 ∨ flagByte c = 1#8 := by
  cases c
  · exact .inl rfl
  · exact .inr rfl

end Sys2Proof.Machine
end

section
/-! The obligations on all instructions: what each writes, what its fault records, and the flag writers (10_state.md
sections 1 to 6, 60_exceptions.md sections 1, 2). -/

namespace Sys2Proof.Machine

/-- Settles O36: every instruction's frame, put together from those of its operations. -/
theorem instructionsWriteOnlyTheirParts : Obligations.InstructionsWriteOnlyTheirParts :=
  fun _ _ hf => exec_of_faultOf_none hf

/-- Settles O37: an instruction fault is the fault entry with the instruction's own word. -/
theorem instructionFaultsArePrecise : Obligations.InstructionFaultsArePrecise :=
  fun _ s k hf => ⟨_, exec_of_faultOf_some hf, faultsWith_raise s k _⟩

/-- Settles O38: each of the five writes `flagByte` to VF last. -/
theorem flagsAreZeroOrOne : Obligations.FlagsAreZeroOrOne := by
  have hflag (u : State) (x : Reg) (b : Byte) (c : Bool) :
      (u.setResultFlag x b c).advance.v[VF] = 0#8 ∨ (u.setResultFlag x b c).advance.v[VF] = 1#8 := by
    rw [State.advance_v, State.setResultFlag_get_VF]
    exact flagByte_eq_zero_or_one c
  rintro i s (⟨x, y, rfl⟩ | ⟨x, y, rfl⟩ | ⟨x, y, rfl⟩ | ⟨x, y, rfl⟩ | ⟨x, y, n, rfl⟩) hf
  iterate 4 exact ⟨_, rfl, hflag s _ _ _⟩
  refine ⟨_, exec_drwVxVyN_of_faultOf_none hf, ?_⟩
  rw [State.advance_v, State.setV_v, Fin.getElem_fin, Vector.getElem_set_self]
  exact flagByte_eq_zero_or_one _

end Sys2Proof.Machine
end

section
/-! The steps as equations, one per move (60_exceptions.md R162, R165, R170, 70_reset_and_hazards.md R180), and what any
step but a reset may change. -/

namespace Sys2Proof.Machine

variable {s t : State}

/-! ### A step by its move -/

/-- While RUN is 0, no tick is taken (60_exceptions.md R170). -/
theorem step_tick_of_halted (hs : s.run = false) (hm : s.nextMove = .tick) : step s = .fault .halted := by
  simp [step, act, hm, hs]

theorem step_quit (hm : s.nextMove = .quit) : step s = .next s.popMove.quit := by
  simp [step, act, hm]

theorem step_reset {rom : List Byte} (hm : s.nextMove = .reset rom) : step s = .next (s.popMove.resetWith rom) := by
  simp [step, act, hm]

theorem Move.isInstr_iff (m : Move) : m.isInstr = true ↔ ∃ keys rnd, m = .instr keys rnd := by
  cases m <;> simp [Move.isInstr]

/-- An instruction step always has a next state: an instruction executed, or a fault recorded. -/
theorem instrStep_total (s : State) : ∃ t, instrStep s = .next t := by
  unfold instrStep
  split
  · split
    · exact exec_total _ s
    · exact ⟨_, rfl⟩
  · exact ⟨_, rfl⟩

/-- A quit request in the halted state changes nothing. -/
theorem State.quit_of_halted (hs : s.run = false) : s.quit = s := by
  cases s
  cases hs
  rfl

/-! ### What a step may change -/

theorem faultOf_congr (i : Instr) (hi : t.i = s.i) (hsp : t.sp = s.sp) : faultOf i t = faultOf i s := by
  cases i <;> simp only [faultOf, hi, hsp]

theorem writesOf_congr (i : Instr) (hi : t.i = s.i) (hsp : t.sp = s.sp) : writesOf i t = writesOf i s := by
  cases i <;> funext p <;> simp only [writesOf, hi, hsp]

/-- Taking a listed move off the schedule changes the schedule alone. -/
theorem frame_popMove_cons {w : Part → Prop} {m : Move} {ms : List Move} (h : s.schedule = m :: ms) (hw : w .schedule) :
    Frame w s s.popMove := by
  rw [State.popMove_cons s m ms h]
  intro p hp
  cases p with
  | schedule => exact absurd hw hp
  | _ => exact rfl

/-- What a step other than a reset may change: RUN and ERR, the input ports and the model's own fields; the timers in a
tick; and in an instruction step the parts listed for the instruction fetched, where it meets no fault. -/
def State.stepWrites (s : State) (p : Part) : Prop :=
  p ∈ [.run, .err, .keys, .rnd, .schedule, .draws] ∨ (s.nextMove = .tick ∧ (p = .dt ∨ p = .st)) ∨
    (s.nextMove.isInstr = true ∧ ∃ i, s.fetched = some i ∧ faultOf i s = none ∧ writesOf i s p)

/-- RUN, ERR, the ports and the model's own fields may always change. -/
theorem State.stepWrites_of_mem {p : Part} (hp : p ∈ [.run, .err, .keys, .rnd, .schedule, .draws]) : s.stepWrites p :=
  .inl hp

/-- Drawing the inputs of an instruction step changes the ports and the model's own fields alone. -/
theorem frame_drawInputs {w : Part → Prop} (s : State) (keys : BitVec 16) (rnd : Byte)
    (hkeys : w .keys) (hrnd : w .rnd) (hsched : w .schedule) (hdraws : w .draws) :
    Frame w s (s.popMove.setInputs keys rnd) :=
  (frame_popMove s hsched hdraws).trans (frame_setInputs _ keys rnd hkeys hrnd)

/-- Every step is a reset or keeps what it may not change. -/
theorem step_frame (h : step s = .next t) : (∃ rom, s.nextMove = .reset rom) ∨ Frame s.stepWrites s t := by
  have hpop : Frame s.stepWrites s s.popMove :=
    frame_popMove s (s.stepWrites_of_mem (by decide)) (s.stepWrites_of_mem (by decide))
  obtain ⟨keys, rnd, hm, -, hi⟩ | ⟨hm, -, rfl⟩ | ⟨-, rfl⟩ | ⟨rom, hm, -⟩ := step_cases h
  · have hdraw : Frame s.stepWrites s (s.popMove.setInputs keys rnd) :=
      frame_drawInputs s keys rnd (s.stepWrites_of_mem (by decide)) (s.stepWrites_of_mem (by decide))
        (s.stepWrites_of_mem (by decide)) (s.stepWrites_of_mem (by decide))
    have hinstr : s.nextMove.isInstr = true := (Move.isInstr_iff _).mpr ⟨keys, rnd, hm⟩
    refine .inr (hdraw.trans ?_)
    obtain ⟨i, hfetch, -, -, hx⟩ | ⟨-, -, -, rfl⟩ | ⟨-, -, rfl⟩ := instrStep_cases hi
    · intro p hp
      by_contra hc
      obtain rfl | rfl | ⟨hf, hw⟩ := exec_changes hx hc
      · exact hp (s.stepWrites_of_mem (by decide))
      · exact hp (s.stepWrites_of_mem (by decide))
      · rw [faultOf_congr (s := s) i (by simp) (by simp)] at hf
        rw [writesOf_congr (s := s) i (by simp) (by simp)] at hw
        exact hp (.inr (.inr ⟨hinstr, i, by simpa using hfetch, hf, hw⟩))
    · exact frame_raise _ _ _ (s.stepWrites_of_mem (by decide)) (s.stepWrites_of_mem (by decide))
    · exact frame_raise _ _ _ (s.stepWrites_of_mem (by decide)) (s.stepWrites_of_mem (by decide))
  · exact .inr (hpop.trans
      (frame_timerTick _ (.inr (.inl ⟨hm, .inl rfl⟩)) (.inr (.inl ⟨hm, .inr rfl⟩))))
  · exact .inr (hpop.trans (frame_quit _ (s.stepWrites_of_mem (by decide))))
  · exact .inl ⟨rom, hm⟩

/-- A part of the machine other than RUN, ERR and the timers is changed by a reset, or by an instruction that lists
it. -/
theorem step_changes {p : Part} (h : step s = .next t)
    (hn : p ∉ [.run, .err, .keys, .rnd, .schedule, .draws, .dt, .st]) (hp : ¬ p.same s t) :
    (∃ rom, s.nextMove = .reset rom) ∨
      (s.nextMove.isInstr = true ∧ ∃ i, s.fetched = some i ∧ faultOf i s = none ∧ writesOf i s p) := by
  refine (step_frame h).imp_right fun hframe => ?_
  obtain hmem | ⟨-, ht⟩ | hi := not_imp_comm.mp (hframe p) hp
  · exact absurd (List.mem_append_left [Part.dt, .st] hmem) hn
  · exact absurd (List.mem_append_right [Part.run, .err, .keys, .rnd, .schedule, .draws] (by simpa using ht)) hn
  · exact hi

end Sys2Proof.Machine
end

section
/-! The obligations on which steps change the screen, memory, the stack and ERR, and on the steps that have no next
state (10_state.md sections 4, 6, 20_memory.md sections 3, 4, 60_exceptions.md sections 1, 2, 6). -/

namespace Sys2Proof.Machine

/-- Settles O55: the instructions that list a pixel are CLS and DRW. -/
theorem onlyDisplayInstructionsDraw : Obligations.OnlyDisplayInstructionsDraw := by
  intro s t x y h hne
  refine (step_changes (p := .pixel x y) h (by simp) hne).imp_right ?_
  rintro ⟨hinstr, i, hfetch, -, hw⟩
  refine ⟨hinstr, ?_⟩
  obtain rfl | ⟨a, b, n, rfl⟩ := writesOf_pixel_iff.mp hw
  · exact .inl hfetch
  · exact .inr ⟨a, b, n, hfetch⟩

/-- Settles O56: the instructions that list a byte are BCD and the register store, whose checks passed. -/
theorem onlyStoresWriteMemory : Obligations.OnlyStoresWriteMemory := by
  intro s t a h hne
  refine (step_changes (p := .byte a) h (by simp) hne).imp_right ?_
  rintro ⟨hinstr, i, hfetch, hf, hw⟩
  obtain ⟨x, rfl, k, hk, rfl⟩ | ⟨x, rfl, k, hk, rfl⟩ := writesOf_byte_iff.mp hw
  · have hi := (faultOf_bcdVx_eq_none_iff x).mp hf
    exact ⟨hinstr, by omega, by omega, .inl ⟨x, hfetch, by omega⟩⟩
  · have hi := (faultOf_stV0Vx_eq_none_iff x).mp hf
    exact ⟨hinstr, by omega, by omega, .inr ⟨x, hfetch, by omega⟩⟩

/-- Settles O57: the only instruction that lists a stack entry is CALL, and the only other one that lists SP is RET. -/
theorem onlyCallAndReturnTouchStack : Obligations.OnlyCallAndReturnTouchStack := by
  intro s t h
  by_cases hstack : ∀ k : Fin 16, Part.same (.stack k) s t
  · by_cases hsp : Part.same .sp s t
    · exact .inr (.inr ⟨Vector.ext fun k hk => hstack ⟨k, hk⟩, .inl hsp⟩)
    · refine (step_changes h (by simp) hsp).imp_right ?_
      rintro ⟨hinstr, i, hfetch, -, hw⟩
      obtain rfl | ⟨nnn, rfl⟩ := writesOf_sp_iff.mp hw
      · exact .inr ⟨Vector.ext fun k hk => hstack ⟨k, hk⟩, .inr ⟨hinstr, hfetch⟩⟩
      · exact .inl ⟨hinstr, nnn, hfetch⟩
  · obtain ⟨k, hk⟩ := not_forall.mp hstack
    refine (step_changes h (by simp) hk).imp_right ?_
    rintro ⟨hinstr, i, hfetch, -, hw⟩
    obtain ⟨-, nnn, rfl⟩ := writesOf_stack_iff.mp hw
    exact .inl ⟨hinstr, nnn, hfetch⟩

/-- Settles O54: with an error recorded the machine is halted, so only a quit, which keeps ERR, or a reset has a next
state. -/
theorem firstErrorIsLatched : Obligations.FirstErrorIsLatched := by
  intro s t e hinv he h
  have hhalted : s.run ≠ true := fun hs => nomatch he.symm.trans (hinv.running_no_err hs)
  obtain ⟨_, _, -, hs, -⟩ | ⟨-, hs, -⟩ | ⟨-, rfl⟩ | ⟨rom, hm, -⟩ := step_cases h
  · exact absurd hs hhalted
  · exact absurd hs hhalted
  · exact .inl (by simpa using he)
  · exact .inr ⟨rom, hm⟩

/-- Settles O53: by the move that comes next, and for the two agents by RUN. -/
theorem onlyHaltedMachineStops : Obligations.OnlyHaltedMachineStops := by
  intro s
  cases hm : s.nextMove with
  | instr keys rnd =>
    cases hs : s.run with
    | true => exact .inl (step_instr hm hs ▸ instrStep_total _)
    | false => exact .inr ⟨step_instr_of_halted hm hs, rfl, .inl rfl⟩
  | tick =>
    cases hs : s.run with
    | true => exact .inl ⟨_, step_tick hs hm⟩
    | false => exact .inr ⟨step_tick_of_halted hs hm, rfl, .inr rfl⟩
  | quit => exact .inl ⟨_, step_quit hm⟩
  | reset rom => exact .inl ⟨_, step_reset hm⟩

/-- Settles O46: neither agent steps while RUN is 0, and a quit clears a RUN that is clear. -/
theorem haltedStateIsFrozen : Obligations.HaltedStateIsFrozen := by
  refine fun s hs => ⟨?_, fun t h => ?_, fun rom hm => ⟨_, step_reset hm⟩⟩
  · rintro (hinstr | htick)
    · obtain ⟨keys, rnd, hm⟩ := (Move.isInstr_iff _).mp hinstr
      exact step_instr_of_halted hm hs
    · exact step_tick_of_halted hs htick
  · obtain ⟨_, _, -, hrun, -⟩ | ⟨-, hrun, -⟩ | ⟨-, rfl⟩ | ⟨rom, hm, -⟩ := step_cases h
    · cases hs.symm.trans hrun
    · cases hs.symm.trans hrun
    · rw [State.quit_of_halted (by simpa using hs)]
      exact .inr (frame_popMove s (.inl rfl) (.inr rfl))
    · exact .inl ⟨rom, hm⟩

/-- Settles O42: a tick is the countdown of both timers, after the move is taken off the schedule. -/
theorem tickCountsDown : Obligations.TickCountsDown := by
  intro s ms hs hsched
  refine ⟨_, step_tick hs (s.nextMove_cons _ _ hsched), ?_, ?_, ?_, ?_⟩
  · simp [toNat_countDown]
  · simp [toNat_countDown]
  · simp [s.popMove_cons _ _ hsched]
  · exact (frame_popMove_cons hsched (.inr (.inr rfl))).trans (frame_timerTick _ (.inl rfl) (.inr (.inl rfl)))

/-- Settles O45: a quit clears RUN, after the move is taken off the schedule. -/
theorem quitClearsRun : Obligations.QuitClearsRun := by
  intro s ms hsched
  refine ⟨_, step_quit (s.nextMove_cons _ _ hsched), rfl, ?_, ?_⟩
  · simp [s.popMove_cons _ _ hsched]
  · exact (frame_popMove_cons hsched (.inr rfl)).trans (frame_quit _ (.inl rfl))

end Sys2Proof.Machine
end

section
/-! Reset in closed form (70_reset_and_hazards.md R180 to R182) and the placed word (log 9). -/

namespace Sys2Proof.Machine

variable {s : State}

/-! ### Reset -/

/-- The state a reset starts from: the reset table, with the surroundings' own fields kept (log 12). -/
def State.zeroed (s : State) : State :=
  { State.reset with cfg := s.cfg, schedule := s.schedule, draws := s.draws }

/-- A ROM that fits is loaded (R181). -/
theorem State.resetWith_of_fits (s : State) {rom : List Byte} (h : romFits rom = true) :
    s.resetWith rom = s.zeroed.setMem (Memory.loadRom [] rom) := if_pos h

/-- One that does not is refused (R182). -/
theorem State.resetWith_of_not_fits (s : State) {rom : List Byte} (h : romFits rom = false) :
    s.resetWith rom = s.zeroed.raise .romTooLarge none := if_neg (by simp [h])

theorem romFits_iff (rom : List Byte) : romFits rom = true ↔ rom.length ≤ 3584 := by simp [romFits, romMax]

/-- A fresh machine has the values of the reset table (10_state.md R45). -/
theorem State.zeroed_resetValues (s : State) : s.zeroed.ResetValues :=
  ⟨rfl, fun r => Vector.getElem_replicate r.isLt, rfl, rfl, fun k => Vector.getElem_replicate k.isLt, rfl, rfl,
    Framebuffer.pixel_blank⟩

/-- A loaded ROM lies at `0x200` upward. -/
theorem Memory.read_loadRom (m : Memory) (rom : List Byte) {k : Nat} (h : k < rom.length) :
    (m.loadRom rom).read (0x200 + k) = rom[k] := by
  unfold Memory.loadRom
  rw [Memory.read_writeMany_add _ _ _ h, List.getD_eq_getElem _ _ h]

/-- Loading a ROM leaves the bytes around it. -/
theorem Memory.read_loadRom_outside (m : Memory) (rom : List Byte) {a : Nat}
    (h : a < 0x200 ∨ 0x200 + rom.length ≤ a) : (m.loadRom rom).read a = m.read a := by
  unfold Memory.loadRom
  rw [Memory.read_writeMany, if_neg (by omega)]

/-! ### A word placed at PC -/

/-- The placed word can be fetched. -/
theorem State.placeWord_fetchOk (s : State) (op : Word) : (s.placeWord op).pc.toNat + 1 ≤ 0xFFF := by
  unfold State.placeWord
  cases hf : s.fetchOk with
  | true => exact s.fetchOk_iff.mp hf
  | false => exact (by decide : (0x0200#16).toNat + 1 ≤ 0xFFF)

/-- The two bytes of a word, written high byte first, are read back as the word (20_memory.md R53). -/
theorem Memory.readWord_write_word (m : Memory) (a : Nat) (op : Word) :
    ((m.write a (highByte op)).write (a + 1) (lowByte op)).readWord a = op := by
  rw [Memory.readWord, Memory.read_write_self, Memory.read_write_ne _ _ (Nat.ne_of_lt (Nat.lt_succ_self a)),
    Memory.read_write_self, wordOfBytes_high_low]

/-- The placed word is the word fetched. -/
theorem State.placeWord_fetchWord (s : State) (op : Word) : (s.placeWord op).fetchWord = op :=
  Memory.readWord_write_word s.mem _ op

/-- A list cut to its first instruction step starts with one, or is empty. -/
theorem dropWhile_not_isInstr (ms : List Move) :
    ms.dropWhile (fun m => !m.isInstr) = [] ∨
      ∃ keys rnd rest, ms.dropWhile (fun m => !m.isInstr) = .instr keys rnd :: rest := by
  induction ms with
  | nil => exact .inl rfl
  | cons m ms ih =>
    cases m with
    | instr keys rnd => exact .inr ⟨keys, rnd, ms, rfl⟩
    | _ => exact ih

/-- The move after the placing is an instruction step. -/
theorem State.placeWord_nextMove (s : State) (op : Word) : ∃ keys rnd, (s.placeWord op).nextMove = .instr keys rnd := by
  obtain hnil | ⟨keys, rnd, rest, hcons⟩ := dropWhile_not_isInstr s.schedule
  · exact ⟨_, _, (s.placeWord op).nextMove_nil hnil⟩
  · exact ⟨_, _, (s.placeWord op).nextMove_cons _ _ hcons⟩

end Sys2Proof.Machine
end

section
/-! The obligations on reset, and on the fetch: its faults and the placed word (10_state.md section 9,
70_reset_and_hazards.md section 1, 60_exceptions.md section 2). -/

namespace Sys2Proof.Machine

/-- Settles O48: the table's values, and an empty memory. -/
theorem resetStateIsTable : Obligations.ResetStateIsTable :=
  ⟨State.reset.zeroed_resetValues, rfl, rfl, fun _ => rfl⟩

/-- Settles O47: a ROM that fits is one block of writes into the empty memory; one that does not is the fault entry. -/
theorem resetLoadsRom : Obligations.ResetLoadsRom := by
  intro s rom ms hsched
  have hstep := step_reset (s.nextMove_cons _ _ hsched)
  have hms : s.popMove.schedule = ms := by rw [s.popMove_cons _ _ hsched]
  refine ⟨fun hlen => ?_, fun hlen => ?_⟩
  · rw [State.resetWith_of_fits _ ((romFits_iff rom).mpr hlen)] at hstep
    exact ⟨_, hstep, s.popMove.zeroed_resetValues, rfl, rfl, hms, fun k hk => Memory.read_loadRom [] rom hk,
      fun a ha => Memory.read_loadRom_outside [] rom ha⟩
  · have hlong : romFits rom = false := by rw [← Bool.not_eq_true, romFits_iff]; omega
    rw [State.resetWith_of_not_fits _ hlong] at hstep
    exact ⟨_, hstep, s.popMove.zeroed_resetValues, rfl, rfl, hms, fun _ => rfl⟩

/-- Settles O7: nothing is fetched where the address is out of range or the word does not decode; both are the fault
entry on the state with its inputs drawn. -/
theorem fetchFaultsArePrecise : Obligations.FetchFaultsArePrecise := by
  intro s keys rnd hs hm hnone
  have hframe (k : ErrKind) (op : Option Word) : Frame (fun p => p ∈ [.run, .err, .keys, .rnd, .schedule, .draws]) s
      ((s.popMove.setInputs keys rnd).raise k op) :=
    (frame_drawInputs s keys rnd (by decide) (by decide) (by decide) (by decide)).trans
      (frame_raise _ k op (by decide) (by decide))
  obtain ⟨t, ht⟩ := instrStep_total (s.popMove.setInputs keys rnd)
  obtain ⟨i, hfetch, -, -, -⟩ | ⟨-, -, -, rfl⟩ | ⟨-, -, rfl⟩ := instrStep_cases ht
  · rw [State.setInputs_fetched, State.popMove_fetched, hnone] at hfetch
    cases hfetch
  · exact ⟨_, (step_instr hm hs).trans ht, rfl, nofun, hframe _ _⟩
  · exact ⟨_, (step_instr hm hs).trans ht, rfl, nofun, hframe _ _⟩

/-- Settles O8: the placed word is in range, is the word fetched, and the next move is an instruction step. -/
theorem placedWordRunsNext : Obligations.PlacedWordRunsNext := by
  intro s w i hw
  obtain ⟨keys, rnd, hm⟩ := s.placeWord_nextMove (BitVec.ofNat 16 (w % 2 ^ 16))
  refine ⟨keys, rnd, step_of_decode_ok hm rfl (s.placeWord_fetchOk _) ?_⟩
  rw [State.withFetchWord, State.placeWord_fetchWord]
  exact (decodeTableWord_eq_some_iff w i).mp hw

end Sys2Proof.Machine
end

section
/-! The invariant of reachable states, kept operation by operation (10_state.md sections 3 to 5, 60_exceptions.md
section 2): by what touches none of its parts, by fault entry, by an instruction that meets no fault, and by reset. -/

namespace Sys2Proof.Machine

variable {s t : State} {i : Instr}

/-! ### What touches none of its parts, or RUN alone -/

theorem State.Inv.popMove (h : s.Inv) : s.popMove.Inv := by
  unfold State.popMove
  split <;> exact { h with }

theorem State.Inv.setInputs (h : s.Inv) (keys : BitVec 16) (rnd : Byte) : (s.setInputs keys rnd).Inv := { h with }

theorem State.Inv.timerTick (h : s.Inv) : s.timerTick.Inv := { h with }

theorem State.Inv.quit (h : s.Inv) : s.quit.Inv := { h with running_no_err := nofun }

/-! ### Fault entry -/

/-- Fault entry keeps the invariant where the record is plausible and its word, if any, is the one at PC. -/
theorem State.Inv.raise (h : s.Inv) {k : ErrKind} {op : Option Word}
    (hplausible : ErrRecord.plausible { kind := k, opcode := op, pc := s.pc })
    (hop : ∀ w, op = some w → s.mem.readWord s.pc.toNat = w) : (s.raise k op).Inv :=
  { h with
    running_no_err := nofun
    err_pc := fun _ he => Option.some.inj he ▸ rfl
    err_plausible := fun _ he => Option.some.inj he ▸ hplausible
    err_opcode := fun _ w he hw => by cases he; exact hop w hw }

/-- The record of an instruction's own fault is plausible: the word is the instruction's. -/
theorem plausible_of_faultOf {k : ErrKind} (hf : faultOf i s = some k) (pc : Word) :
    ErrRecord.plausible { kind := k, opcode := some (encodeWord i), pc := pc } := by
  cases i with
  | ret =>
    obtain ⟨-, ⟨⟩⟩ := Option.ite_none_right_eq_some.mp hf
    exact rfl
  | call nnn =>
    obtain ⟨-, ⟨⟩⟩ := Option.ite_none_right_eq_some.mp hf
    show (formatNNN 0x2 nnn).toNat / 4096 = 2
    rw [← toNat_fieldFam, fieldFam_formatNNN]; rfl
  | drwVxVyN x y n =>
    obtain ⟨-, ⟨⟩⟩ := Option.ite_none_right_eq_some.mp hf
    refine .inl (?_ : (formatXYN 0xD x y n).toNat / 4096 = 0xD)
    rw [← toNat_fieldFam, fieldFam_formatXYN]; rfl
  | bcdVx x | stV0Vx x | ldV0Vx x =>
    obtain ⟨-, ⟨⟩⟩ := Option.ite_none_right_eq_some.mp hf
    refine .inr ?_
    rw [encodeWord, ← toNat_fieldFam, fieldFam_formatXNN, ← toNat_fieldNN, fieldNN_formatXNN]
    decide
  | _ => cases hf

/-! ### An instruction that meets no fault, part by part -/

/-- The two instructions that write memory write inside the address space. -/
theorem exec_mem_wf (hf : faultOf i s = none) (h : exec i s = .next t) (hwf : s.mem.wf = true) : t.mem.wf = true := by
  cases i with
  | ret =>
    obtain ⟨k, hk⟩ := faultOf_ret_eq_none_iff.mp hf
    cases (exec_ret_of_sp k hk).symm.trans h
    exact hwf
  | call nnn =>
    cases (exec_call_of_sp nnn ((faultOf_call_eq_none_iff nnn).mp hf)).symm.trans h
    exact hwf
  | drwVxVyN x y n =>
    cases (exec_drwVxVyN_of_faultOf_none hf).symm.trans h
    exact hwf
  | bcdVx x =>
    have hi := (faultOf_bcdVx_eq_none_iff x).mp hf
    cases (exec_bcdVx_of_le x hi).symm.trans h
    exact Memory.writeMany_wf hwf (by rw [State.addr_eq]; omega) _
  | stV0Vx x =>
    have hi := (faultOf_stV0Vx_eq_none_iff x).mp hf
    cases (exec_stV0Vx_of_le x hi).symm.trans h
    exact Memory.writeMany_wf hwf (by rw [State.addr_eq]; omega) _
  | ldV0Vx x =>
    cases (exec_ldV0Vx_of_le x ((faultOf_ldV0Vx_eq_none_iff x).mp hf)).symm.trans h
    exact hwf
  | seVxNn | sneVxNn | skpVx | sknpVx => cases h; exact (s.skipIf_mem _).symm ▸ hwf
  | _ => cases h; exact hwf

/-- `I` is written by LD I, nnn alone, with 12 bits (10_state.md R26). -/
theorem exec_i_le (hf : faultOf i s = none) (h : exec i s = .next t) (hi : s.i.toNat ≤ 0xFFF) : t.i.toNat ≤ 0xFFF := by
  by_cases hw : writesOf i s .i
  · obtain ⟨nnn, rfl⟩ := writesOf_i_iff.mp hw
    cases h
    rw [State.advance_i, State.setI_i, toNat_addrOf]
    omega
  · rw [exec_frame hf h .i hw]
    exact hi

/-- A PC at which a word was fetched goes up by at most 4. -/
theorem toNat_pc_add_le {pc k : Word} (hpc : pc.toNat + 1 ≤ 0xFFF) (hk : k.toNat ≤ 4) :
    (pc + k).toNat ≤ 0xFFE + k.toNat := by
  rw [BitVec.toNat_add]
  omega

/-- After an instruction fetched from memory PC is at most `0x1002` (10_state.md R25): the last word's skip. -/
theorem exec_pc_le (hf : faultOf i s = none) (h : exec i s = .next t) (hpc : s.pc.toNat + 1 ≤ 0xFFF)
    (hstack : ∀ k : Fin 16, s.stack[k].toNat ≤ 0x1000) : t.pc.toNat ≤ 0x1002 := by
  have hnext : (s.pc + 2#16).toNat ≤ 0x1002 := (toNat_pc_add_le hpc (by decide)).trans (by decide)
  have hskip : (s.pc + 4#16).toNat ≤ 0x1002 := (toNat_pc_add_le hpc (by decide)).trans (by decide)
  obtain ⟨u, hu, hpolicy⟩ := pcPolicy.1 i s hf
  cases hu.symm.trans h
  cases i with
  | jp nnn | call nnn => exact hpolicy.le.trans (by omega)
  | ret =>
    obtain ⟨k, hk⟩ := faultOf_ret_eq_none_iff.mp hf
    rw [hpolicy k hk]
    exact (hstack k).trans (by decide)
  | seVxNn | sneVxNn | skpVx | sknpVx =>
    rw [hpolicy]
    split
    · assumption
    · assumption
  | _ => exact hpolicy ▸ hnext

/-- The stack receives return addresses alone (10_state.md R25). -/
theorem exec_stack_le (hf : faultOf i s = none) (h : exec i s = .next t) (hpc : s.pc.toNat + 1 ≤ 0xFFF)
    (hstack : ∀ k : Fin 16, s.stack[k].toNat ≤ 0x1000) (k : Fin 16) : t.stack[k].toNat ≤ 0x1000 := by
  by_cases hw : writesOf i s (.stack k)
  · obtain ⟨hk, nnn, rfl⟩ := writesOf_stack_iff.mp hw
    cases (exec_call_of_sp nnn (by omega)).symm.trans h
    have hentry : (s.stack.set s.sp.val (s.pc + 2#16) (by omega))[k] = s.pc + 2#16 := by simp [hk]
    rw [State.setPc_stack, hentry]
    exact (toNat_pc_add_le hpc (by decide)).trans (by decide)
  · rw [exec_frame hf h (.stack k) hw]
    exact hstack k

/-- An instruction fetched from memory by a running machine keeps the invariant, fault or not. -/
theorem State.Inv.of_exec (hinv : s.Inv) (hrun : s.run = true) (hfetch : s.fetchOk = true)
    (hword : s.fetchWord = encodeWord i) (h : exec i s = .next t) : t.Inv := by
  cases hf : faultOf i s with
  | some k =>
    cases (exec_of_faultOf_some hf).symm.trans h
    exact hinv.raise (plausible_of_faultOf hf s.pc) fun w hw => hword.trans (Option.some.inj hw)
  | none =>
    have hpc := s.fetchOk_iff.mp hfetch
    have herr : t.err = none :=
      (exec_frame hf h .err (not_writesOf_of_mem (by decide))).trans (hinv.running_no_err hrun)
    exact {
      mem_wf := exec_mem_wf hf h hinv.mem_wf
      i_range := exec_i_le hf h hinv.i_range
      pc_range := exec_pc_le hf h hpc hinv.stack_range
      stack_range := exec_stack_le hf h hpc hinv.stack_range
      running_no_err := fun _ => herr
      err_pc := fun _ he => nomatch herr.symm.trans he
      err_plausible := fun _ he => nomatch herr.symm.trans he
      err_opcode := fun _ _ he => nomatch herr.symm.trans he }

/-- The instruction step keeps the invariant of a running machine. -/
theorem State.Inv.of_instrStep (hinv : s.Inv) (hrun : s.run = true) (h : instrStep s = .next t) : t.Inv := by
  obtain ⟨i, -, hfetch, hd, hx⟩ | ⟨-, -, ⟨e, hd⟩, rfl⟩ | ⟨-, hout, rfl⟩ := instrStep_cases h
  · exact hinv.of_exec hrun hfetch (encodeWord_of_decodeWord hd).symm hx
  · exact hinv.raise (supported_eq_false_of_decodeWord_error hd) fun w hw => Option.some.inj hw
  · have hpc : 0xFFF < s.pc.toNat + 1 := (addrOk_false_iff _).mp hout
    exact hinv.raise (Nat.le_of_lt_succ hpc) nofun

/-! ### Reset -/

/-- A fresh machine meets the invariant: every part of it is 0, PC is `0x200`, and no error is recorded. -/
theorem State.zeroed_inv (s : State) : s.zeroed.Inv where
  mem_wf := rfl
  i_range := Nat.zero_le _
  pc_range := (by decide : (0x0200#16).toNat ≤ 0x1002)
  stack_range k := by
    obtain ⟨-, -, -, -, hstack, -⟩ := s.zeroed_resetValues
    rw [hstack k]
    decide
  running_no_err _ := rfl
  err_pc := nofun
  err_plausible := nofun
  err_opcode := nofun

/-- A reset meets the invariant with any ROM. -/
theorem State.resetWith_inv (s : State) (rom : List Byte) : (s.resetWith rom).Inv := by
  cases hfits : romFits rom with
  | true =>
    rw [s.resetWith_of_fits hfits]
    exact { s.zeroed_inv with mem_wf := Memory.loadRom_wf Memory.wf_nil hfits, err_opcode := nofun }
  | false =>
    rw [s.resetWith_of_not_fits hfits]
    exact s.zeroed_inv.raise (k := .romTooLarge) (op := none) rfl nofun

end Sys2Proof.Machine
end

section
/-! The obligations on the invariant of reachable states (10_state.md sections 3 to 5, 9; 60_exceptions.md
section 2). -/

namespace Sys2Proof.Machine

/-- Settles O51: the reset state is a fresh machine. -/
theorem invariantHoldsAtReset : Obligations.InvariantHoldsAtReset := State.reset.zeroed_inv

/-- Settles O52: each kind of step by the operations it is made of. -/
theorem stepKeepsInvariant : Obligations.StepKeepsInvariant := by
  intro s t hinv h
  obtain ⟨keys, rnd, -, hrun, hi⟩ | ⟨-, -, rfl⟩ | ⟨-, rfl⟩ | ⟨rom, -, rfl⟩ := step_cases h
  · exact (hinv.popMove.setInputs keys rnd).of_instrStep (s.popMove_run.trans hrun) hi
  · exact hinv.popMove.timerTick
  · exact hinv.popMove.quit
  · exact s.popMove.resetWith_inv rom

end Sys2Proof.Machine
end

section
/-! What the display statements need: a draw in closed form (42_display.md R131, R132). A sprite's bits hit distinct
pixels, so each is plotted on the pixel as it was before the draw. -/

namespace Sys2Proof.Machine

/-! ### What a canvas shows after some bits are plotted -/

/-- `c` is `c₀` with the bits `on` plotted: each pixel XORed with its bit, and a collision where a 1 bit met a pixel
that was on. -/
structure Canvas.Plotted (c₀ c : Canvas) (on : Fin 64 → Fin 32 → Bool) : Prop where
  pixel : ∀ px py, c.fb.pixel px py = (c₀.fb.pixel px py ^^ on px py)
  coll : c.coll = true ↔ c₀.coll = true ∨ ∃ px py, on px py = true ∧ c₀.fb.pixel px py = true

theorem Canvas.Plotted.none (c : Canvas) : c.Plotted c (fun _ _ => false) := ⟨by simp, by simp⟩

/-- A bit plotted where none has been yet. -/
theorem Canvas.Plotted.plot {c₀ c : Canvas} {on on' : Fin 64 → Fin 32 → Bool} (h : c₀.Plotted c on) {x : Fin 64}
    {y : Fin 32} (bit : Bool) (hfree : on x y = false)
    (hon : ∀ px py, on' px py = (on px py || (bit && decide (px = x ∧ py = y)))) : c₀.Plotted (c.plot x y bit) on' where
  pixel px py := by
    show (c.fb.xorPixel x y bit).pixel px py = _
    rw [Framebuffer.pixel_xorPixel, h.pixel, hon]
    by_cases hp : px = x ∧ py = y
    · obtain ⟨rfl, rfl⟩ := hp
      simp [hfree]
    · simp [hp]
  coll := by
    have hold : c.fb.pixel x y = c₀.fb.pixel x y := by rw [h.pixel, hfree, Bool.xor_false]
    show (c.coll || (bit && c.fb.pixel x y)) = true ↔ _
    simp only [hold, hon, Bool.or_eq_true, Bool.and_eq_true, decide_eq_true_eq, h.coll]
    constructor
    · rintro ((h0 | ⟨px, py, hp, hc⟩) | ⟨hb, hc⟩)
      · exact .inl h0
      · exact .inr ⟨px, py, .inl hp, hc⟩
      · exact .inr ⟨x, y, .inr ⟨hb, rfl, rfl⟩, hc⟩
    · rintro (h0 | ⟨px, py, hp | ⟨hb, rfl, rfl⟩, hc⟩)
      · exact .inl (.inl h0)
      · exact .inl (.inr ⟨px, py, hp, hc⟩)
      · exact .inr ⟨hb, hc⟩

/-! ### A pixel's place in the sprite -/

/-- The pixel's column counted from the sprite's left edge, around the screen. -/
def spriteCol (vx : Nat) (px : Fin 64) : Nat := (px.val + 64 - vx % 64) % 64

/-- The pixel's row counted from the sprite's top edge, around the screen. -/
def spriteRow (vy : Nat) (py : Fin 32) : Nat := (py.val + 32 - vy % 32) % 32

theorem eq_ofNat_iff_spriteCol (vx : Nat) (px : Fin 64) {col : Nat} (h : col < 64) :
    px = Fin.ofNat 64 (vx + col) ↔ spriteCol vx px = col := by
  rw [Fin.ext_iff, Fin.val_ofNat, spriteCol]
  omega

theorem eq_ofNat_iff_spriteRow (vy : Nat) (py : Fin 32) {row : Nat} (h : row < 32) :
    py = Fin.ofNat 32 (vy + row) ↔ spriteRow vy py = row := by
  rw [Fin.ext_iff, Fin.val_ofNat, spriteRow]
  omega

/-- The sprite's bits within its first `row` rows and the first `col` columns of the next, on their pixels. -/
def partOn (vx vy : Nat) (rowByte : Nat → Byte) (row col : Nat) (px : Fin 64) (py : Fin 32) : Bool :=
  decide (spriteCol vx px < 8) &&
    decide (spriteRow vy py < row ∨ (spriteRow vy py = row ∧ spriteCol vx px < col)) &&
    spriteBit (rowByte (spriteRow vy py)) (spriteCol vx px)

section

variable (vx vy : Nat) (rowByte : Nat → Byte)

/-- No bit before the first row. -/
theorem partOn_zero : partOn vx vy rowByte 0 0 = fun _ _ => false := by
  funext px py
  simp [partOn]

/-- Eight columns are a row. -/
theorem partOn_row (row : Nat) : partOn vx vy rowByte row 8 = partOn vx vy rowByte (row + 1) 0 := by
  funext px py
  by_cases h : spriteCol vx px < 8
  · have hrows : (spriteRow vy py < row ∨ (spriteRow vy py = row ∧ spriteCol vx px < 8)) ↔
        (spriteRow vy py < row + 1 ∨ (spriteRow vy py = row + 1 ∧ spriteCol vx px < 0)) := by omega
    rw [partOn, decide_eq_decide.mpr hrows, partOn]
  · simp [partOn, h]

/-- The next bit's pixel has no bit of the part before it. -/
theorem partOn_next_free {row col : Nat} (hrow : row < 32) (hcol : col < 8) :
    partOn vx vy rowByte row col (Fin.ofNat 64 (vx + col)) (Fin.ofNat 32 (vy + row)) = false := by
  have hc := (eq_ofNat_iff_spriteCol vx _ (by omega)).mp (rfl : Fin.ofNat 64 (vx + col) = _)
  have hr := (eq_ofNat_iff_spriteRow vy _ hrow).mp (rfl : Fin.ofNat 32 (vy + row) = _)
  simp only [partOn, hc, hr, Nat.lt_irrefl, and_false, or_false, decide_false, Bool.and_false, Bool.false_and]

/-- One more column adds the next bit on its pixel. -/
theorem partOn_next {row col : Nat} (hrow : row < 32) (hcol : col < 8) (px : Fin 64) (py : Fin 32) :
    partOn vx vy rowByte row (col + 1) px py = (partOn vx vy rowByte row col px py ||
      (spriteBit (rowByte row) col && decide (px = Fin.ofNat 64 (vx + col) ∧ py = Fin.ofNat 32 (vy + row)))) := by
  have hcol64 : col < 64 := by omega
  simp only [eq_ofNat_iff_spriteCol vx px hcol64, eq_ofNat_iff_spriteRow vy py hrow, partOn]
  by_cases hr : spriteRow vy py = row
  · by_cases hc : spriteCol vx px = col
    · simp [hr, hc, hcol]
    · have : spriteCol vx px < col + 1 ↔ spriteCol vx px < col := by omega
      simp [hr, hc, this]
  · simp [hr]

/-- A sprite row plots its eight bits. -/
theorem Canvas.Plotted.drawRow {c₀ c : Canvas} {row : Nat} (hrow : row < 32)
    (h : c₀.Plotted c (partOn vx vy rowByte row 0)) :
    c₀.Plotted (c.drawRow vx vy row (rowByte row)) (partOn vx vy rowByte (row + 1) 0) := by
  rw [← partOn_row]
  exact loop_induct (P := fun col c => c₀.Plotted c (partOn vx vy rowByte row col)) h fun col _ hcol hc =>
    hc.plot _ (partOn_next_free vx vy rowByte hrow hcol) (partOn_next vx vy rowByte hrow hcol)

/-- `n` sprite rows plot the bits of those rows: no row comes round to another, as there are at most 32. -/
theorem Canvas.plotted_drawRows (c : Canvas) {n : Nat} (hn : n ≤ 32) :
    c.Plotted (c.drawRows vx vy rowByte n) (partOn vx vy rowByte n 0) :=
  loop_induct (P := fun row c' => c.Plotted c' (partOn vx vy rowByte row 0))
    (partOn_zero vx vy rowByte ▸ Canvas.Plotted.none c)
    fun _ _ hrow hc => hc.drawRow vx vy rowByte (Nat.lt_of_lt_of_le hrow hn)

end

/-! ### The draw of an instruction -/

/-- All the rows are the sprite in closed form. -/
theorem State.spriteOn_eq_partOn (s : State) (x y : Reg) (n : Nat) :
    s.spriteOn x y n = partOn s.v[x].toNat s.v[y].toNat (fun row => s.mem.read (s.addr row)) n 0 := by
  funext px py
  have hrows : (spriteRow s.v[y].toNat py < n ∨ (spriteRow s.v[y].toNat py = n ∧ spriteCol s.v[x].toNat px < 0)) ↔
      spriteRow s.v[y].toNat py < n := by omega
  rw [partOn, decide_eq_decide.mpr hrows]
  rfl

/-- The canvas of a draw is the framebuffer with the sprite plotted on it. -/
theorem State.plotted_drawn (s : State) (x y : Reg) (n : Fin 16) :
    Canvas.Plotted { fb := s.fb, coll := false } (s.drawn x y n.val) (s.spriteOn x y n.val) := by
  rw [s.spriteOn_eq_partOn]
  exact Canvas.plotted_drawRows _ _ _ _ (by omega)

/-- The flag of a draw: 1 where some 1 bit met a pixel that was on, else 0. -/
theorem Canvas.Plotted.flagByte_coll {c₀ c : Canvas} {on : Fin 64 → Fin 32 → Bool} (h : c₀.Plotted c on)
    (h₀ : c₀.coll = false) :
    (flagByte c.coll = 1#8 ∧ ∃ px py, on px py = true ∧ c₀.fb.pixel px py = true) ∨
      (flagByte c.coll = 0#8 ∧ ∀ px py, on px py = true → c₀.fb.pixel px py = false) := by
  have hcoll : c.coll = true ↔ ∃ px py, on px py = true ∧ c₀.fb.pixel px py = true := by simp [h.coll, h₀]
  cases hc : c.coll with
  | true => exact .inl ⟨rfl, hcoll.mp hc⟩
  | false =>
    refine .inr ⟨rfl, fun px py hon => ?_⟩
    rw [← Bool.not_eq_true]
    exact fun hp => Bool.false_ne_true (hc.symm.trans (hcoll.mpr ⟨px, py, hon, hp⟩))

/-- Framebuffers that agree on every pixel are equal. -/
theorem Framebuffer.ext_of_pixel {fb fb' : Framebuffer} (h : ∀ x y, fb.pixel x y = fb'.pixel x y) : fb = fb' :=
  Vector.ext fun y hy => BitVec.eq_of_getLsbD_eq fun x hx => h ⟨x, hx⟩ ⟨y, hy⟩

/-- The closed form reads the two coordinates, `I` and memory. -/
theorem State.spriteOn_congr {s t : State} {x y : Reg} (hx : t.v[x] = s.v[x]) (hy : t.v[y] = s.v[y]) (hi : t.i = s.i)
    (hmem : ∀ a, t.mem.read a = s.mem.read a) (n : Nat) : t.spriteOn x y n = s.spriteOn x y n := by
  funext px py
  simp only [State.spriteOn, hx, hy, hi, hmem]

/-- The `Dxyn` word as a number (30_encoding.md R76). -/
theorem encodeWord_drwVxVyN (x y : Reg) (n : Fin 16) :
    encodeWord (.drwVxVyN x y n) = BitVec.ofNat 16 (0xD000 + x.val * 256 + y.val * 16 + n.val) := by
  apply BitVec.eq_of_toNat_eq
  rw [encodeWord, toNat_formatXYN, BitVec.toNat_ofNat, Nat.mod_eq_of_lt (by omega)]
  rfl

end Sys2Proof.Machine
end

section
/-! The obligations of 42_display.md on DRW (R131, R132) and of 10_state.md on the port PIXELS (R42). -/

namespace Sys2Proof.Machine

/-- Settles O27: the canvas of the draw is the framebuffer with the sprite plotted, and the flag its collision. -/
theorem drawXorsSprite : Obligations.DrawXorsSprite := by
  intro x y n s hrows
  have hf := (faultOf_drwVxVyN_eq_none_iff x y n).mpr hrows
  have hdrw := exec_drwVxVyN_of_faultOf_none hf
  have hplotted := s.plotted_drawn x y n
  refine ⟨_, hdrw, hplotted.pixel, ?_, rfl, exec_frame hf hdrw⟩
  rw [State.advance_v, State.setV_v, Fin.getElem_fin, Vector.getElem_set_self]
  exact hplotted.flagByte_coll rfl

/-- Settles O28: the second draw has the same sprite, because the first left the coordinates, `I` and memory; a pixel
XORed twice with one bit is restored, and where the bit is 1 the second draw finds it the other way round. -/
theorem drawTwiceRestores : Obligations.DrawTwiceRestores := by
  intro x y n s hx hy hrows
  obtain ⟨t, ht, hpixel, -, -, hframe⟩ := drawXorsSprite x y n s hrows
  have hi : t.i = s.i := hframe .i (by simp)
  have hsprite : t.spriteOn x y n.val = s.spriteOn x y n.val :=
    State.spriteOn_congr (hframe (.v x) (by simpa using hx)) (hframe (.v y) (by simpa using hy)) hi
      (fun a => hframe (.byte a) (by simp)) n.val
  obtain ⟨u, hu, hpixel', hflag, -, -⟩ := drawXorsSprite x y n t (hi ▸ hrows)
  rw [hsprite] at hpixel' hflag
  have hturned {px : Fin 64} {py : Fin 32} (hon : s.spriteOn x y n.val px py = true) :
      t.fb.pixel px py = !s.fb.pixel px py := by rw [hpixel, hon, Bool.xor_true]
  refine ⟨t, u, ht, hu, Framebuffer.ext_of_pixel fun px py => ?_, ?_⟩
  · rw [hpixel', hpixel, Bool.xor_assoc, Bool.xor_self, Bool.xor_false]
  · obtain ⟨hvf, px, py, hon, hp⟩ | ⟨hvf, hoff⟩ := hflag
    · exact .inl ⟨hvf, px, py, hon, by simpa [hturned hon] using hp⟩
    · exact .inr ⟨hvf, fun px py hon => by simpa [hturned hon] using hoff px py hon⟩

/-- Settles O29: the fault entry of a draw, with its word written out. -/
theorem drawOutOfRange : Obligations.DrawOutOfRange := by
  intro x y n s hn hi
  have hfault : faultOf (.drwVxVyN x y n) s = some .addressOutOfRange := if_pos ⟨hn, hi⟩
  exact ⟨_, exec_of_faultOf_some hfault, encodeWord_drwVxVyN x y n ▸ faultsWith_raise s _ _⟩

/-- Settles O50: bit `64*y + x` of the port is the pixel whose number modulo 64 is `x` and divided by 64 is `y`. -/
theorem pixelsPortLayout : Obligations.PixelsPortLayout := by
  intro s x y
  have hlt : 64 * y.val + x.val < 2048 := by omega
  have hx : Fin.ofNat 64 (64 * y.val + x.val) = x := Fin.ext (by rw [Fin.val_ofNat]; omega)
  have hy : Fin.ofNat 32 ((64 * y.val + x.val) / 64) = y := Fin.ext (by rw [Fin.val_ofNat]; omega)
  rw [State.pixels, BitVec.getLsbD_ofFnLE, dif_pos hlt]
  simp only [hx, hy]

end Sys2Proof.Machine
end

section
/-! What the statements on single instructions need: a skip by what its condition says, a register read back, the flags
as numbers, the shift source, and the register blocks (40_control_transfer.md, 41_load_alu.md, 43_timer_memory.md). -/

namespace Sys2Proof.Machine

variable (s : State)

/-! ### Skips -/

/-- A skip on a condition. -/
theorem State.skipIf_pc_of_iff {c : Bool} {P : Prop} [Decidable P] (h : c = true ↔ P) :
    (s.skipIf c).pc = if P then s.pc + 4#16 else s.pc + 2#16 := by
  rw [State.skipIf_pc]
  exact if_congr h rfl rfl

/-- A skip on the opposite of a condition. -/
theorem State.skipIf_not_pc_of_iff {c : Bool} {P : Prop} [Decidable P] (h : c = true ↔ P) :
    (s.skipIf !c).pc = if P then s.pc + 2#16 else s.pc + 4#16 := by
  rw [State.skipIf_pc, ← ite_not]
  exact if_congr (by rw [← h, Bool.not_eq_true', Bool.not_eq_false]) rfl rfl

/-- Of a skip on a condition and one on its opposite exactly one skips. -/
theorem State.skipIf_opposite_pc (c : Bool) :
    ((s.skipIf c).pc = s.pc + 4#16 ∧ (s.skipIf !c).pc = s.pc + 2#16) ∨
      ((s.skipIf c).pc = s.pc + 2#16 ∧ (s.skipIf !c).pc = s.pc + 4#16) := by
  cases c
  · exact .inr ⟨rfl, rfl⟩
  · exact .inl ⟨rfl, rfl⟩

theorem State.keyPressed_iff (x : Reg) :
    s.keyPressed x = true ↔ s.v[x].toNat ≤ 15 ∧ s.keys.getLsbD s.v[x].toNat = true := by
  simp [State.keyPressed]

/-! ### Registers, flags and the shift source -/

/-- A register written is read back. -/
theorem State.setV_get_self (x : Reg) (b : Byte) : (s.setV x b).v[x] = b := Vector.getElem_set_self _

theorem flagByte_noBorrow (a b : Byte) : flagByte (noBorrow a b) = if a.toNat ≥ b.toNat then 1#8 else 0#8 := by
  simp only [flagByte, noBorrow, decide_eq_true_eq, ge_iff_le]

theorem toNat_flagByte (c : Bool) : (flagByte c).toNat = c.toNat := by
  cases c <;> rfl

theorem toNat_flagByte_shiftedOutRight (a : Byte) : (flagByte (shiftedOutRight a)).toNat = a.toNat % 2 := by
  rw [toNat_flagByte, shiftedOutRight, BitVec.getLsbD, Nat.toNat_testBit, Nat.pow_zero, Nat.div_one]

theorem toNat_flagByte_shiftedOutLeft (a : Byte) : (flagByte (shiftedOutLeft a)).toNat = a.toNat / 128 := by
  rw [toNat_flagByte, shiftedOutLeft, BitVec.getLsbD, Nat.toNat_testBit]
  omega

/-- A result and flag, then the advance of PC, as the statements on the flag writers ask for it: the result where `x` is
not F, the flag, PC and the frame. -/
theorem resultFlag_spec (s : State) (x : Reg) (b : Byte) (c : Bool) :
    (x ≠ VF → (s.setResultFlag x b c).advance.v[x] = b) ∧ (s.setResultFlag x b c).advance.v[VF] = flagByte c ∧
      Frame (fun p => p = .v x ∨ p = .v VF ∨ p = .pc) s (s.setResultFlag x b c).advance :=
  ⟨fun hx => s.setResultFlag_get_of_ne hx b c, s.setResultFlag_get_VF x b c,
    frame_setResultFlag_advance s x b c (.inl rfl) (.inr (.inl rfl)) (.inr (.inr rfl))⟩

theorem State.shiftOperand_eq (x y : Reg) :
    s.shiftOperand x y = if s.cfg.shiftSource = .vx then s.v[x] else s.v[y] := by
  unfold State.shiftOperand
  cases s.cfg.shiftSource <;> rfl

/-! ### Register blocks -/

/-- A word of family F as a number (30_encoding.md R76). -/
theorem formatXNN_F_eq (x : Reg) (nn : Byte) :
    formatXNN 0xF x nn = BitVec.ofNat 16 (0xF000 + nn.toNat + x.val * 256) := by
  apply BitVec.eq_of_toNat_eq
  rw [toNat_formatXNN, BitVec.toNat_ofNat, Nat.mod_eq_of_lt (by omega)]
  show 0xF000 + x.val * 256 + nn.toNat = _
  omega

theorem encodeWord_stV0Vx (x : Reg) : encodeWord (.stV0Vx x) = BitVec.ofNat 16 (0xF055 + x.val * 256) :=
  formatXNN_F_eq x 0x55

theorem encodeWord_ldV0Vx (x : Reg) : encodeWord (.ldV0Vx x) = BitVec.ofNat 16 (0xF065 + x.val * 256) :=
  formatXNN_F_eq x 0x65

variable {s} {t : State}

/-- A register block store leaves each register at its address. -/
theorem exec_stV0Vx_read {x r : Reg} (hi : s.i.toNat + x.val ≤ 0xFFF) (h : exec (.stV0Vx x) s = .next t) (hr : r ≤ x) :
    t.mem.read (s.i.toNat + r.val) = s.v[r] := by
  cases (exec_stV0Vx_of_le x hi).symm.trans h
  exact (Memory.read_writeMany_add _ _ _ (Nat.lt_succ_of_le hr)).trans (s.regAt_eq r)

/-- A register block load takes each register of the block from its address and leaves the others. -/
theorem exec_ldV0Vx_get {x : Reg} (hi : s.i.toNat + x.val ≤ 0xFFF) (h : exec (.ldV0Vx x) s = .next t) (r : Reg) :
    t.v[r] = if r ≤ x then s.mem.read (s.i.toNat + r.val) else s.v[r] := by
  cases (exec_ldV0Vx_of_le x hi).symm.trans h
  exact (s.loadedRegs_get _ _ (by omega) r).trans (if_congr Nat.lt_succ_iff rfl rfl)

end Sys2Proof.Machine
end

section
/-! The obligations of 40_control_transfer.md on SKP, SKNP and on a call and its return (R100, R102, R105, R106). -/

namespace Sys2Proof.Machine

/-- Settles O12: the CALL left its return address under the depth it left, and RET pops that entry. -/
theorem returnUndoesCall : Obligations.ReturnUndoesCall := by
  intro nnn s t u hroom hcall hsp hstack
  cases (exec_call_of_sp nnn hroom).symm.trans hcall
  have hdepth : u.sp.val = s.sp.val + 1 := congrArg Fin.val hsp
  have hentry : u.stack[s.sp.val] = s.pc + 2#16 :=
    (hstack ⟨s.sp.val, hroom⟩ (hdepth ▸ Nat.lt_succ_self _)).trans (Vector.getElem_set_self _)
  exact ⟨_, exec_ret_of_sp ⟨s.sp.val, hroom⟩ hdepth, hentry, rfl⟩

/-- Settles O14: both are one conditional skip, on the key test and on its negation. -/
theorem keySkips : Obligations.KeySkips :=
  fun x s => ⟨⟨_, rfl, s.skipIf_pc_of_iff (s.keyPressed_iff x), frame_skipIf s _ rfl⟩,
    ⟨_, rfl, s.skipIf_not_pc_of_iff (s.keyPressed_iff x), frame_skipIf s _ rfl⟩⟩

/-- Settles O15: in each pair the conditions are opposite. -/
theorem oppositeSkipsDisagree : Obligations.OppositeSkipsDisagree :=
  fun x nn s => ⟨⟨_, _, rfl, rfl, s.skipIf_opposite_pc (s.getV x == nn)⟩,
    ⟨_, _, rfl, rfl, s.skipIf_opposite_pc (s.keyPressed x)⟩⟩

end Sys2Proof.Machine
end

section
/-! The obligations of 41_load_alu.md on the immediate add, the moves and the logic, the flag writers and RND (R111 to
R121). -/

namespace Sys2Proof.Machine

/-- Settles O17: one register write of the sum, then the advance of PC. -/
theorem addImmediateWraps : Obligations.AddImmediateWraps := by
  refine fun x nn s => ⟨_, rfl, ?_, rfl, frame_setV_advance s x _ (.inl rfl) (.inr rfl)⟩
  rw [State.advance_v, State.setV_get_self]
  exact BitVec.toNat_add _ _

/-- Settles O18: one register write each, whose value is taken bit by bit. -/
theorem moveAndLogic : Obligations.MoveAndLogic := by
  intro x y s
  have hframe (b : Byte) : Frame (fun p => p = .v x ∨ p = .pc) s (s.setV x b).advance :=
    frame_setV_advance s x b (.inl rfl) (.inr rfl)
  refine ⟨⟨_, rfl, s.setV_get_self x _, rfl, hframe _⟩, ⟨_, rfl, fun k => ?_, rfl, hframe _⟩,
    ⟨_, rfl, fun k => ?_, rfl, hframe _⟩, ⟨_, rfl, fun k => ?_, rfl, hframe _⟩⟩
  · rw [State.advance_v, State.setV_get_self]
    exact BitVec.getLsbD_or
  · rw [State.advance_v, State.setV_get_self]
    exact BitVec.getLsbD_and
  · rw [State.advance_v, State.setV_get_self]
    exact BitVec.getLsbD_xor

/-- Settles O20: VF is written twice, the carry last. -/
theorem addIntoFlagRegister : Obligations.AddIntoFlagRegister := by
  refine fun y s => ⟨_, rfl, ?_, rfl, frame_setResultFlag_advance s VF _ _ (.inl rfl) (.inl rfl) (.inr rfl)⟩
  rw [State.advance_v, State.setResultFlag_get_VF]
  exact flagByte_carryOut _ _

/-- Settles O21: the difference survives the flag write where `x` is not F, and the flag is the comparison. -/
theorem subSetsNoBorrow : Obligations.SubSetsNoBorrow := by
  intro x y s
  obtain ⟨hresult, hflag, hframe⟩ := resultFlag_spec s x (s.v[x] - s.v[y]) (noBorrow s.v[x] s.v[y])
  refine ⟨_, rfl, fun hx => ?_, hflag.trans (flagByte_noBorrow _ _), rfl, hframe⟩
  refine (congrArg BitVec.toNat (hresult hx)).trans ?_
  rw [BitVec.toNat_sub]
  omega

/-- Settles O22: the halved source survives the flag write where `x` is not F, and the flag is its bit 0. -/
theorem shiftRight : Obligations.ShiftRight := by
  intro x y s a ha
  obtain rfl := ha.trans (s.shiftOperand_eq x y).symm
  obtain ⟨hresult, hflag, hframe⟩ :=
    resultFlag_spec s x (s.shiftOperand x y >>> 1) (shiftedOutRight (s.shiftOperand x y))
  refine ⟨_, rfl, fun hx => ?_, (congrArg BitVec.toNat hflag).trans (toNat_flagByte_shiftedOutRight _), rfl, hframe⟩
  refine (congrArg BitVec.toNat (hresult hx)).trans ?_
  rw [BitVec.toNat_ushiftRight, Nat.shiftRight_eq_div_pow, Nat.pow_one]

/-- Settles O23: the doubled source survives the flag write where `x` is not F, and the flag is its bit 7. -/
theorem shiftLeft : Obligations.ShiftLeft := by
  intro x y s a ha
  obtain rfl := ha.trans (s.shiftOperand_eq x y).symm
  obtain ⟨hresult, hflag, hframe⟩ :=
    resultFlag_spec s x (s.shiftOperand x y <<< 1) (shiftedOutLeft (s.shiftOperand x y))
  refine ⟨_, rfl, fun hx => ?_, (congrArg BitVec.toNat hflag).trans (toNat_flagByte_shiftedOutLeft _), rfl, hframe⟩
  refine (congrArg BitVec.toNat (hresult hx)).trans ?_
  rw [BitVec.toNat_shiftLeft, Nat.shiftLeft_eq, Nat.pow_one]

/-- Settles O25: one register write of the port's value, masked. -/
theorem randomMasked : Obligations.RandomMasked := by
  refine fun x nn s => ⟨_, rfl, fun k => ?_, rfl, frame_setV_advance s x _ (.inl rfl) (.inr rfl)⟩
  rw [State.advance_v, State.setV_get_self]
  exact BitVec.getLsbD_and

end Sys2Proof.Machine
end

section
/-! The obligations of 43_timer_memory.md on the timers and the register blocks (R140 to R142, R144, R145), and of
20_memory.md on a store before a fetch (section 4). -/

namespace Sys2Proof.Machine

/-- Settles O30: one write each, to the register or to the timer named, then the advance of PC. -/
theorem timerAccess : Obligations.TimerAccess :=
  fun x s => ⟨⟨_, rfl, s.setV_get_self x _, rfl, frame_setV_advance s x _ (.inl rfl) (.inr rfl)⟩,
    ⟨_, rfl, rfl, rfl, (frame_setDt s _ (.inl rfl)).trans (frame_advance _ (.inr rfl))⟩,
    ⟨_, rfl, rfl, rfl, (frame_setSt s _ (.inl rfl)).trans (frame_advance _ (.inr rfl))⟩⟩

/-- Settles O32: inside memory one block of writes, past it the fault entry. -/
theorem storeRegisters : Obligations.StoreRegisters := by
  refine fun x s => ⟨fun hi => ?_, fun hout => ?_⟩
  · have hstore := exec_stV0Vx_of_le x hi
    refine ⟨_, hstore, fun r hr => exec_stV0Vx_read hi hstore hr, rfl,
      (exec_frame ((faultOf_stV0Vx_eq_none_iff x).mpr hi) hstore).mono fun p hp => hp.imp_left ?_⟩
    rintro ⟨k, hk, rfl⟩
    exact ⟨⟨k, by omega⟩, hk, rfl⟩
  · have hfault : faultOf (.stV0Vx x) s = some .addressOutOfRange := if_pos hout
    exact ⟨_, exec_of_faultOf_some hfault, encodeWord_stV0Vx x ▸ faultsWith_raise s _ _⟩

/-- Settles O33: inside memory the registers of the block from their addresses, past it the fault entry. -/
theorem loadRegisters : Obligations.LoadRegisters := by
  refine fun x s => ⟨fun hi => ?_, fun hout => ?_⟩
  · have hload := exec_ldV0Vx_of_le x hi
    exact ⟨_, hload, fun r hr => (exec_ldV0Vx_get hi hload r).trans (if_pos hr), rfl,
      exec_frame ((faultOf_ldV0Vx_eq_none_iff x).mpr hi) hload⟩
  · have hfault : faultOf (.ldV0Vx x) s = some .addressOutOfRange := if_pos hout
    exact ⟨_, exec_of_faultOf_some hfault, encodeWord_ldV0Vx x ▸ faultsWith_raise s _ _⟩

/-- Settles O34: the load reads each register where the store left it. -/
theorem loadAfterStoreRestores : Obligations.LoadAfterStoreRestores := by
  intro x s t u hi hstore hmem hui
  have hload := exec_ldV0Vx_of_le (s := u) x (hui ▸ hi)
  have hget := exec_ldV0Vx_get (hui ▸ hi) hload
  refine ⟨_, hload, fun r hr => ?_, fun r hr => (hget r).trans (if_neg (Fin.not_le.mpr hr))⟩
  rw [hget r, if_pos hr, hmem, hui]
  exact exec_stV0Vx_read hi hstore hr

/-- Settles O35: the two bytes at the next PC are those of registers `k` and `k + 1` of the block. -/
theorem storeSeenByNextFetch : Obligations.StoreSeenByNextFetch := by
  intro x k s hi hk hpc
  have hstore := exec_stV0Vx_of_le x hi
  refine ⟨_, hstore, ?_⟩
  have hhigh := exec_stV0Vx_read (r := k.castSucc) hi hstore (Fin.le_def.mpr (by simp; omega))
  have hlow := exec_stV0Vx_read (r := k.succ) hi hstore (Fin.le_def.mpr (by simpa using hk))
  rw [State.fetchWord, Memory.readWord, State.advance_pc, State.setMem_pc, hpc]
  exact congrArg₂ wordOfBytes hhigh hlow

end Sys2Proof.Machine
end

section
/-! What an instruction does not read (10_state.md sections 4, 8, 00_scope.md section 4): the inputs and the parameter
apart from their readers, the moves to come, and the stack apart from CALL and RET. -/

namespace Sys2Proof.Machine

variable {s t r : State} {i : Instr} {f : Vector Word 16 → Vector Word 16}

/-- The state with what few instructions read replaced: the input ports, the parameter and the moves to come by those of
another state, and the stack by a function of it. -/
def State.withUnread (s r : State) (f : Vector Word 16 → Vector Word 16) : State :=
  { s with keys := r.keys, rnd := r.rnd, cfg := r.cfg, schedule := r.schedule, stack := f s.stack }

/-- The input or parameter an instruction reads (10_state.md section 8, 00_scope.md R6(a)). -/
def readsInput (i : Instr) (p : Part) : Prop :=
  match i with
  | .skpVx _ => p = .keys
  | .sknpVx _ => p = .keys
  | .rndVxNn _ _ => p = .rnd
  | .shrVxVy _ _ => p = .cfg
  | .shlVxVy _ _ => p = .cfg
  | _ => False

theorem readsInput_keys_iff : readsInput i .keys ↔ (∃ x, i = .skpVx x) ∨ ∃ x, i = .sknpVx x := by
  cases i <;> simp [readsInput]

theorem readsInput_rnd_iff : readsInput i .rnd ↔ ∃ x nn, i = .rndVxNn x nn := by
  cases i <;> simp [readsInput]

theorem readsInput_cfg_iff : readsInput i .cfg ↔ (∃ x y, i = .shrVxVy x y) ∨ ∃ x y, i = .shlVxVy x y := by
  cases i <;> simp [readsInput]

theorem not_readsInput_schedule : ¬ readsInput i .schedule := by
  cases i <;> simp [readsInput]

theorem State.withUnread_skipIf (c : Bool) : (s.withUnread r f).skipIf c = (s.skipIf c).withUnread r f := by
  cases c <;> rfl

theorem State.withUnread_keyPressed (h : r.keys = s.keys) (x : Reg) :
    (s.withUnread r f).keyPressed x = s.keyPressed x := by
  rw [State.keyPressed, State.keyPressed, ← h]
  rfl

theorem State.withUnread_shiftOperand (h : r.cfg = s.cfg) (x y : Reg) :
    (s.withUnread r f).shiftOperand x y = s.shiftOperand x y := by
  rw [State.shiftOperand_eq, State.shiftOperand_eq, ← h]
  rfl

/-- An instruction does the same whatever the inputs it does not read, the moves to come, and, but for CALL and RET, the
stack. -/
theorem exec_withUnread (hread : ∀ p, readsInput i p → p.same s r) (hstack : i = .ret ∨ (∃ nnn, i = .call nnn) → f = id)
    (h : exec i s = .next t) : exec i (s.withUnread r f) = .next (t.withUnread r f) := by
  have hfault : faultOf i (s.withUnread r f) = faultOf i s := faultOf_congr i rfl rfl
  cases hf : faultOf i s with
  | some k =>
    cases (exec_of_faultOf_some hf).symm.trans h
    exact exec_of_faultOf_some (hfault.trans hf)
  | none =>
    cases i with
    | ret =>
      obtain rfl := hstack (.inl rfl)
      obtain ⟨k, hk⟩ := faultOf_ret_eq_none_iff.mp hf
      cases (exec_ret_of_sp k hk).symm.trans h
      exact exec_ret_of_sp (s := s.withUnread r id) k hk
    | call nnn =>
      obtain rfl := hstack (.inr ⟨nnn, rfl⟩)
      have hlt := (faultOf_call_eq_none_iff nnn).mp hf
      cases (exec_call_of_sp nnn hlt).symm.trans h
      exact exec_call_of_sp (s := s.withUnread r id) nnn hlt
    | drwVxVyN x y n =>
      cases (exec_drwVxVyN_of_faultOf_none hf).symm.trans h
      exact exec_drwVxVyN_of_faultOf_none (hfault.trans hf)
    | bcdVx x =>
      have hi := (faultOf_bcdVx_eq_none_iff x).mp hf
      cases (exec_bcdVx_of_le x hi).symm.trans h
      exact exec_bcdVx_of_le x hi
    | stV0Vx x =>
      have hi := (faultOf_stV0Vx_eq_none_iff x).mp hf
      cases (exec_stV0Vx_of_le x hi).symm.trans h
      exact exec_stV0Vx_of_le x hi
    | ldV0Vx x =>
      have hi := (faultOf_ldV0Vx_eq_none_iff x).mp hf
      cases (exec_ldV0Vx_of_le x hi).symm.trans h
      exact exec_ldV0Vx_of_le x hi
    | seVxNn | sneVxNn =>
      cases h
      exact congrArg Host.Outcome.next (State.withUnread_skipIf _)
    | skpVx x | sknpVx x =>
      have hkey := State.withUnread_keyPressed (f := f) (hread .keys rfl) x
      cases h
      rw [← State.withUnread_skipIf, ← hkey]
      rfl
    | rndVxNn x nn =>
      have hrnd : r.rnd = s.rnd := hread .rnd rfl
      cases h
      rw [← hrnd]
      rfl
    | shrVxVy x y | shlVxVy x y =>
      have hsource := State.withUnread_shiftOperand (f := f) (hread .cfg rfl) x y
      cases h
      rw [← hsource]
      rfl
    | _ => cases h; rfl

/-- An instruction writes neither the input ports nor the parameter nor the moves to come. -/
theorem exec_keeps_inputs (h : exec i s = .next t) :
    t.keys = s.keys ∧ t.rnd = s.rnd ∧ t.cfg = s.cfg ∧ t.schedule = s.schedule :=
  ⟨exec_same (p := .keys) h nofun nofun (not_writesOf_of_mem (by decide)),
    exec_same (p := .rnd) h nofun nofun (not_writesOf_of_mem (by decide)),
    exec_same (p := .cfg) h nofun nofun (not_writesOf_of_mem (by decide)),
    exec_same (p := .schedule) h nofun nofun (not_writesOf_of_mem (by decide))⟩

/-- Other moves to come make no difference to an instruction, and stay. -/
theorem exec_withSchedule (h : exec i s = .next t) (ms : List Move) :
    exec i { s with schedule := ms } = .next { t with schedule := ms } := by
  obtain ⟨hkeys, hrnd, hcfg, -⟩ := exec_keeps_inputs h
  have hread (p : Part) (hp : readsInput i p) : p.same s { s with schedule := ms } := by
    cases p with
    | schedule => exact absurd hp not_readsInput_schedule
    | _ => exact rfl
  refine (exec_withUnread (f := id) hread (fun _ => rfl) h).trans ?_
  simp only [State.withUnread, id, hkeys, hrnd, hcfg]

/-! ### Stale stack entries -/

/-- The stack agrees with the state's on the entries below SP. -/
def State.AgreesBelowSp (s : State) (stack : Vector Word 16) : Prop :=
  ∀ k : Fin 16, k.val < s.sp.val → stack[k] = s.stack[k]

/-- An instruction that meets a fault leaves the stack. -/
theorem exec_stale_of_faultOf_some {stack : Vector Word 16} {k : ErrKind} (hstale : s.AgreesBelowSp stack)
    (hf : faultOf i s = some k) (h : exec i s = .next t) :
    exec i { s with stack := stack } = .next { t with stack := stack } ∧ t.AgreesBelowSp stack := by
  cases (exec_of_faultOf_some hf).symm.trans h
  exact ⟨exec_of_faultOf_some ((faultOf_congr i rfl rfl).trans hf), hstale⟩

/-- RET reads the entry below SP and leaves the stack. -/
theorem exec_ret_stale {stack : Vector Word 16} (hstale : s.AgreesBelowSp stack) (hf : faultOf .ret s = none)
    (h : exec .ret s = .next t) :
    exec .ret { s with stack := stack } = .next { t with stack := stack } ∧ t.AgreesBelowSp stack := by
  obtain ⟨k, hk⟩ := faultOf_ret_eq_none_iff.mp hf
  cases (exec_ret_of_sp k hk).symm.trans h
  refine ⟨?_, fun j hj => hstale j (hk ▸ Nat.lt_succ_of_lt hj)⟩
  rw [← hstale k (hk ▸ Nat.lt_succ_self _)]
  exact exec_ret_of_sp (s := { s with stack := stack }) k hk

/-- CALL writes the entry at SP, the same on either stack. -/
theorem exec_call_stale {stack : Vector Word 16} {nnn : Addr12} (hstale : s.AgreesBelowSp stack) (hsp : s.sp.val < 16)
    (h : exec (.call nnn) s = .next t) :
    exec (.call nnn) { s with stack := stack } =
        .next { t with stack := stack.set s.sp.val (s.pc + 2#16) } ∧
      t.AgreesBelowSp (stack.set s.sp.val (s.pc + 2#16)) := by
  cases (exec_call_of_sp nnn hsp).symm.trans h
  refine ⟨exec_call_of_sp (s := { s with stack := stack }) nnn hsp, fun k hk => ?_⟩
  show (stack.set s.sp.val (s.pc + 2#16))[k.val] = (s.stack.set s.sp.val (s.pc + 2#16))[k.val]
  rw [Vector.getElem_set, Vector.getElem_set]
  split
  · rfl
  · next hne => exact hstale k (Nat.lt_of_le_of_ne (Nat.le_of_lt_succ hk) (Ne.symm hne))

/-- The other instructions neither read nor write the stack. -/
theorem exec_stale_of_ne {stack : Vector Word 16} (hstale : s.AgreesBelowSp stack) (hret : i ≠ .ret)
    (hcall : ¬ ∃ nnn, i = .call nnn) (h : exec i s = .next t) :
    exec i { s with stack := stack } = .next { t with stack := stack } ∧ t.AgreesBelowSp stack := by
  obtain ⟨hkeys, hrnd, hcfg, hsched⟩ := exec_keeps_inputs h
  have hsp : t.sp = s.sp := exec_same (p := .sp) h nofun nofun fun hw => (writesOf_sp_iff.mp hw).elim hret hcall
  have hstack (k : Fin 16) : t.stack[k] = s.stack[k] :=
    exec_same (p := .stack k) h nofun nofun fun hw => hcall (writesOf_stack_iff.mp hw).2
  refine ⟨(exec_withUnread (r := s) (f := fun _ => stack) (fun p _ => p.same_rfl s)
    (fun hi => (hi.elim hret hcall).elim) h).trans ?_, fun k hk => (hstale k (hsp ▸ hk)).trans (hstack k).symm⟩
  simp only [State.withUnread, hkeys, hrnd, hcfg, hsched]

end Sys2Proof.Machine
end

section
/-! The obligations on what reaches an instruction: the inputs and the parameter (10_state.md section 8, 00_scope.md
section 4), and the stack (10_state.md section 4). -/

namespace Sys2Proof.Machine

/-- Settles O40: each input or parameter is read by the instructions named alone, and none is written. -/
theorem inputsReachOnlyTheirReaders : Obligations.InputsReachOnlyTheirReaders := by
  refine ⟨fun i s t keys hskp hsknp h => ?_, fun i s t rnd hrnd h => ?_, fun i s t cfg hshr hshl h => ?_⟩
  all_goals obtain ⟨hkeys, hr, hcfg, hsched⟩ := exec_keeps_inputs h
  · have hread (p : Part) (hp : readsInput i p) : p.same s { s with keys := keys } := by
      cases p with
      | keys =>
        exact (readsInput_keys_iff.mp hp).elim (fun ⟨x, hi⟩ => (hskp x hi).elim) fun ⟨x, hi⟩ => (hsknp x hi).elim
      | _ => exact rfl
    refine (exec_withUnread (f := id) hread (fun _ => rfl) h).trans ?_
    simp only [State.withUnread, id, hr, hcfg, hsched]
  · have hread (p : Part) (hp : readsInput i p) : p.same s { s with rnd := rnd } := by
      cases p with
      | rnd => exact (readsInput_rnd_iff.mp hp).elim fun x ⟨nn, hi⟩ => (hrnd x nn hi).elim
      | _ => exact rfl
    refine (exec_withUnread (f := id) hread (fun _ => rfl) h).trans ?_
    simp only [State.withUnread, id, hkeys, hcfg, hsched]
  · have hread (p : Part) (hp : readsInput i p) : p.same s { s with cfg := cfg } := by
      cases p with
      | cfg =>
        exact (readsInput_cfg_iff.mp hp).elim (fun ⟨x, y, hi⟩ => (hshr x y hi).elim) fun ⟨x, y, hi⟩ =>
          (hshl x y hi).elim
      | _ => exact rfl
    refine (exec_withUnread (f := id) hread (fun _ => rfl) h).trans ?_
    simp only [State.withUnread, id, hkeys, hr, hsched]

/-- Settles O41: a fault leaves the stack, RET reads the entry below SP, CALL writes the one at SP, and the others leave
the stack alone. -/
theorem staleStackUnobservable : Obligations.StaleStackUnobservable := by
  intro i s t stack hstale h
  cases hf : faultOf i s with
  | some k => exact ⟨stack, exec_stale_of_faultOf_some hstale hf h⟩
  | none =>
    by_cases hret : i = .ret
    · subst hret
      exact ⟨stack, exec_ret_stale hstale hf h⟩
    by_cases hcall : ∃ nnn, i = .call nnn
    · obtain ⟨nnn, rfl⟩ := hcall
      exact ⟨_, exec_call_stale hstale ((faultOf_call_eq_none_iff nnn).mp hf) h⟩
    · exact ⟨stack, exec_stale_of_ne hstale hret hcall h⟩

end Sys2Proof.Machine
end

section
/-! Moves in a row: the delay timer over one move, and a move under another schedule (60_exceptions.md section 5,
70_reset_and_hazards.md section 3). -/

namespace Sys2Proof.Machine

variable {s t : State} {m : Move}

/-! ### A move by RUN (60_exceptions.md R170) -/

theorem act_instr_of_run {keys : BitVec 16} {rnd : Byte} (hs : s.run = true) :
    act (.instr keys rnd) s = instrStep (s.setInputs keys rnd) := if_pos hs

theorem act_instr_of_halted {keys : BitVec 16} {rnd : Byte} (hs : s.run = false) :
    act (.instr keys rnd) s = .fault .halted := if_neg (Bool.eq_false_iff.mp hs)

theorem act_tick_of_run (hs : s.run = true) : act .tick s = .next s.timerTick := if_pos hs

theorem act_tick_of_halted (hs : s.run = false) : act .tick s = .fault .halted := if_neg (Bool.eq_false_iff.mp hs)

/-! ### The delay timer -/

/-- An instruction step leaves DT unless it executes LD DT, Vx (10_state.md R30). -/
theorem instrStep_dt (h : instrStep s = .next t) (hset : ∀ x, s.fetched ≠ some (.ldDtVx x)) : t.dt = s.dt := by
  obtain ⟨i, hfetch, -, -, hx⟩ | ⟨-, -, -, rfl⟩ | ⟨-, -, rfl⟩ := instrStep_cases h
  · refine exec_same (p := .dt) hx nofun nofun fun hw => ?_
    obtain ⟨x, rfl⟩ := writesOf_dt_iff.mp hw
    exact hset x hfetch
  · rfl
  · rfl

/-- Over one move that is no reset and executes no LD DT, Vx, DT goes down in a tick alone. -/
theorem act_dt (h : act m s = .next t) (hreset : ∀ rom, m ≠ .reset rom)
    (hset : ∀ x, m.isInstr = true → s.fetched ≠ some (.ldDtVx x)) :
    t.dt.toNat = s.dt.toNat - if m = .tick then 1 else 0 := by
  cases m with
  | instr keys rnd =>
    cases hs : s.run with
    | true =>
      rw [act_instr_of_run hs] at h
      exact congrArg BitVec.toNat (instrStep_dt (s := s.setInputs keys rnd) h fun x => hset x rfl)
    | false => cases (act_instr_of_halted hs).symm.trans h
  | tick =>
    cases hs : s.run with
    | true =>
      cases (act_tick_of_run hs).symm.trans h
      exact toNat_countDown s.dt
    | false => cases (act_tick_of_halted hs).symm.trans h
  | quit => cases h; rfl
  | reset rom => exact absurd rfl (hreset rom)

/-- After a reset DT is 0 (10_state.md R45). -/
theorem State.resetWith_dt (s : State) (rom : List Byte) : (s.resetWith rom).dt = 0#8 := by
  cases hfits : romFits rom with
  | true => rw [s.resetWith_of_fits hfits]; rfl
  | false => rw [s.resetWith_of_not_fits hfits]; rfl

/-! ### A move under another schedule -/

/-- A function applied to the next state, where there is one. -/
def mapNext (f : State → State) : Result → Result
  | .next s => .next (f s)
  | .fault r => .fault r
  | .refused r => .refused r

/-- The state with other moves to come. -/
def State.withSchedule (s : State) (ms : List Move) : State := { s with schedule := ms }

theorem instrStep_withSchedule (s : State) (ms : List Move) :
    instrStep (s.withSchedule ms) = mapNext (·.withSchedule ms) (instrStep s) := by
  obtain ⟨t, ht⟩ := instrStep_total s
  rw [ht]
  obtain ⟨i, -, hfetch, hd, hx⟩ | ⟨-, hfetch, ⟨e, hd⟩, rfl⟩ | ⟨-, hfetch, rfl⟩ := instrStep_cases ht
  all_goals
    change (s.withSchedule ms).fetchOk = _ at hfetch
    rw [instrStep, hfetch]
  · change decodeWord (s.withSchedule ms).fetchWord = _ at hd
    rw [hd]
    exact exec_withSchedule hx ms
  · change decodeWord (s.withSchedule ms).fetchWord = _ at hd
    rw [hd]
    rfl
  · rfl

theorem act_withSchedule (m : Move) (s : State) (ms : List Move) :
    act m (s.withSchedule ms) = mapNext (·.withSchedule ms) (act m s) := by
  cases m with
  | instr keys rnd =>
    cases hs : s.run with
    | true =>
      rw [act_instr_of_run hs, act_instr_of_run (s := s.withSchedule ms) hs]
      exact instrStep_withSchedule (s.setInputs keys rnd) ms
    | false => rw [act_instr_of_halted hs, act_instr_of_halted (s := s.withSchedule ms) hs, mapNext]
  | tick =>
    cases hs : s.run with
    | true => rw [act_tick_of_run hs, act_tick_of_run (s := s.withSchedule ms) hs]; rfl
    | false => rw [act_tick_of_halted hs, act_tick_of_halted (s := s.withSchedule ms) hs, mapNext]
  | quit => rfl
  | reset rom =>
    refine congrArg Host.Outcome.next ?_
    cases hfits : romFits rom with
    | true => rw [State.resetWith_of_fits _ hfits, State.resetWith_of_fits _ hfits]; rfl
    | false => rw [State.resetWith_of_not_fits _ hfits, State.resetWith_of_not_fits _ hfits]; rfl

/-- A move leaves the moves to come. -/
theorem act_schedule (h : act m s = .next t) : t.schedule = s.schedule := by
  have hself : act m s = mapNext (·.withSchedule s.schedule) (act m s) := act_withSchedule m s s.schedule
  rw [h] at hself
  have ht : t = t.withSchedule s.schedule := Host.Outcome.next.inj hself
  exact (congrArg State.schedule ht).trans rfl

/-- A step takes the first move listed. -/
theorem step_withSchedule_cons (m : Move) (s : State) (ms : List Move) :
    step (s.withSchedule (m :: ms)) = mapNext (·.withSchedule ms) (act m s) :=
  act_withSchedule m s ms

/-! ### A run by its first step -/

theorem core_run_of_next {M : Host.Core} {k : Nat} {s t : M.State} (h : M.step s = .next t) :
    M.run (k + 1) s = M.run k t := by rw [Host.Core.run, h]

theorem core_run_of_fault {M : Host.Core} {k : Nat} {s : M.State} {e : M.Fault} (h : M.step s = .fault e) :
    M.run (k + 1) s = .fault e := by rw [Host.Core.run, h]

theorem core_run_of_refused {M : Host.Core} {k : Nat} {s : M.State} {e : M.Refusal} (h : M.step s = .refused e) :
    M.run (k + 1) s = .refused e := by rw [Host.Core.run, h]

end Sys2Proof.Machine
end

section
/-! The obligations on runs: the delay timer over a run and under fairness, and schedules as runs (60_exceptions.md
section 5, 70_reset_and_hazards.md section 3). -/

namespace Sys2Proof.Machine

/-- Settles O43: by induction on the number of moves, each of which takes DT down in a tick alone. -/
theorem delayTimerCountsTicks : Obligations.DelayTimerCountsTicks := by
  intro moves f n k hrun hmoves
  induction k with
  | zero => rfl
  | succ k ih =>
    obtain ⟨hreset, hset⟩ := hmoves k (Nat.lt_succ_self k)
    have hstep := act_dt (hrun (n + k)) hreset hset
    rw [ih fun j hj => hmoves j (Nat.lt_succ_of_lt hj)] at hstep
    rw [List.range_succ, List.countP_append, List.countP_singleton]
    simp only [decide_eq_true_eq]
    exact hstep.trans (Nat.sub_sub _ _ _)

/-- Over a stretch of a run with a tick in it, and no reset or LD DT, Vx, DT goes down to at most one less. -/
theorem IsRun.dt_after_tick {moves : Nat → Move} {f : Nat → State} {n m : Nat} (hrun : IsRun moves f)
    (hreset : ∀ j, n ≤ j → ∀ rom, moves j ≠ .reset rom)
    (hset : ∀ j, n ≤ j → ∀ x, (moves j).isInstr = true → (f j).fetched ≠ some (.ldDtVx x)) (hnm : n ≤ m)
    (htick : moves m = .tick) : (f (m + 1)).dt.toNat ≤ (f n).dt.toNat - 1 := by
  obtain ⟨k, rfl⟩ := Nat.exists_eq_add_of_le hnm
  have hdt := delayTimerCountsTicks moves f n (k + 1) hrun fun j _ =>
    ⟨hreset _ (Nat.le_add_right n j), hset _ (Nat.le_add_right n j)⟩
  have hticks : 0 < (List.range (k + 1)).countP (fun j => decide (moves (n + j) = .tick)) :=
    List.countP_pos_iff.mpr ⟨k, List.mem_range.mpr (Nat.lt_succ_self k), decide_eq_true htick⟩
  rw [Nat.add_assoc, hdt]
  omega

/-- Settles O44: a reset sets DT to 0; without one, fairness gives a tick after every moment, each of which takes DT
down. -/
theorem fairRunsExhaustDelayTimer : Obligations.FairRunsExhaustDelayTimer := by
  intro moves f n hrun hfair halive hset
  by_cases hreset : ∀ j, n ≤ j → ∀ rom, moves j ≠ .reset rom
  · obtain ⟨-, hticks⟩ := hfair halive
    have hexhaust (d : Nat) : ∀ j, n ≤ j → (f j).dt.toNat ≤ d → ∃ j, n ≤ j ∧ (f j).dt = 0#8 := by
      induction d with
      | zero => exact fun j hj hd => ⟨j, hj, BitVec.eq_of_toNat_eq (Nat.le_zero.mp hd)⟩
      | succ d ih =>
        intro j hj hd
        obtain ⟨m, hjm, htick⟩ := hticks j
        have hdown := hrun.dt_after_tick (fun i hi => hreset i (hj.trans hi)) (fun i hi => hset i (hj.trans hi))
          hjm htick
        exact ih (m + 1) (by omega) (by omega)
    exact hexhaust _ n le_rfl le_rfl
  · push Not at hreset
    obtain ⟨j, hj, rom, hm⟩ := hreset
    have hnext := hrun j
    rw [hm] at hnext
    have hreset : (f j).resetWith rom = f (j + 1) := Host.Outcome.next.inj hnext
    exact ⟨j + 1, by omega, hreset ▸ (f j).resetWith_dt rom⟩

/-- Settles O58: by induction on the moves; each is taken off the schedule, and leaves the moves after it to come. -/
theorem everyInterleavingIsARun : Obligations.EveryInterleavingIsARun := by
  intro ms
  induction ms with
  | nil => exact fun _ => rfl
  | cons m ms ih =>
    intro s
    have hstep := step_withSchedule_cons m s (ms ++ s.schedule)
    rw [runMoves]
    cases h : act m s
    all_goals rw [h] at hstep
    case next t =>
      refine (core_run_of_next (M := Sys2Proof.core) hstep).trans ?_
      rw [← act_schedule h]
      exact ih t
    case fault e => exact core_run_of_fault (M := Sys2Proof.core) hstep
    case refused e => exact core_run_of_refused (M := Sys2Proof.core) hstep

end Sys2Proof.Machine
end
